-- ==== Sys2Proof/Word.lean ====
section
/-! DEFINITION. The word types of the LC-3 core: one width of data, address and instruction (R11, R51, R80), the byte of
the console (R15), and the index of a general register (R21, R25). -/

namespace Sys2Proof

/-- The only unit of memory, register and instruction: 16 bits (`spec/00_scope.md` R7, R11). -/
abbrev Word := BitVec 16

/-- A byte of the console input or output (R15, R37). -/
abbrev Byte := BitVec 8

/-- A word address: every 16-bit value is one (R50). -/
abbrev Addr := Word

/-- A general register's number, 0 to 7: the field is 3 bits wide, so no other number can be written (R21, R25, D20). -/
abbrev RegIdx := Fin 8

end Sys2Proof
end

