-- ==== Sys2Proof/Syntax.lean ====
section
/-! DEFINITION. The instructions: one constructor per row of `spec/opcode_table.json`, carrying exactly the sub-fields the
instruction uses (R83 to R86, R89). Ignored bits (R91) are not operands (log 5). -/

namespace Sys2Proof

/-- The instructions of the LC-3 core. Register operands are numbers below 8 (R83); immediates are kept at their encoded
width, before sign extension (R84). -/
inductive Instr where
  /-- BR (R130): the condition mask `ir[11:9]` (n, z, p from high to low, R86) and offset9. -/
  | br (nzp : BitVec 3) (off : BitVec 9)
  /-- ADD, register form (R120). -/
  | addReg (dr sr1 sr2 : RegIdx)
  /-- ADD, immediate form (R121). -/
  | addImm (dr sr1 : RegIdx) (imm : BitVec 5)
  /-- LD (R141). -/
  | ld (dr : RegIdx) (off : BitVec 9)
  /-- ST (R145). -/
  | st (sr : RegIdx) (off : BitVec 9)
  /-- JSR (R133). -/
  | jsr (off : BitVec 11)
  /-- JSRR (R134). -/
  | jsrr (base : RegIdx)
  /-- AND, register form (R122). -/
  | andReg (dr sr1 sr2 : RegIdx)
  /-- AND, immediate form (R123). -/
  | andImm (dr sr1 : RegIdx) (imm : BitVec 5)
  /-- LDR (R143). -/
  | ldr (dr base : RegIdx) (off : BitVec 6)
  /-- STR (R147). -/
  | str (sr base : RegIdx) (off : BitVec 6)
  /-- RTI, opcode 8, an invalid opcode here (R180). -/
  | rti
  /-- NOT (R124). -/
  | notOp (dr sr1 : RegIdx)
  /-- LDI (R142). -/
  | ldi (dr : RegIdx) (off : BitVec 9)
  /-- STI (R146). -/
  | sti (sr : RegIdx) (off : BitVec 9)
  /-- JMP, and RET when `base` is 7 (R131, R132). -/
  | jmp (base : RegIdx)
  /-- RES, opcode 13, reserved (R181). -/
  | res
  /-- LEA (R144). -/
  | lea (dr : RegIdx) (off : BitVec 9)
  /-- TRAP x20, GETC (R161). -/
  | getc
  /-- TRAP x21, OUT (R162). -/
  | out
  /-- TRAP x22, PUTS (R163). -/
  | puts
  /-- TRAP x23, IN (R164). -/
  | inOp
  /-- TRAP x24, PUTSP (R165). -/
  | putsp
  /-- TRAP x25, HALT (R166). -/
  | halt
  /-- TRAP with a vector that is none of the six (R167). -/
  | trapUnknown (vector : BitVec 8)
  deriving DecidableEq, Repr

end Sys2Proof
end

