-- ==== Sys2Proof/WellFormed.lean ====
section
/-! DEFINITION. Which terms of `Instr` stand for an instruction word. The operand types carry every field's width; the one
thing they do not say is that the row of the unknown trap vectors is taken only when none of the six known ones matches
(R89, R167). -/

namespace Sys2Proof

/-- The six trap vectors with a routine of their own, 0x20 to 0x25 (R88). -/
def knownTrapVectors : List (BitVec 8) := [0x20#8, 0x21#8, 0x22#8, 0x23#8, 0x24#8, 0x25#8]

/-- A term stands for an instruction word: the vector of the unknown-vector row is none of the six (R89, R167). -/
def Instr.wellFormed : Instr → Bool
  | .br _ _ => true
  | .addReg _ _ _ => true
  | .addImm _ _ _ => true
  | .ld _ _ => true
  | .st _ _ => true
  | .jsr _ => true
  | .jsrr _ => true
  | .andReg _ _ _ => true
  | .andImm _ _ _ => true
  | .ldr _ _ _ => true
  | .str _ _ _ => true
  | .rti => true
  | .notOp _ _ => true
  | .ldi _ _ => true
  | .sti _ _ => true
  | .jmp _ => true
  | .res => true
  | .lea _ _ => true
  | .getc => true
  | .out => true
  | .puts => true
  | .inOp => true
  | .putsp => true
  | .halt => true
  | .trapUnknown v => !knownTrapVectors.contains v

end Sys2Proof
end

