-- ==== Sys2Proof/Decode.lean ====
section
/-! DEFINITION. The decoder (R81 to R91, R113), total on every word: no word is refused (R89). After it the encoder, written
from the same layouts, with the canonical value in every ignored bit (R92). Opcode numbers and field positions are those of
`spec/30_encoding.md`, most of them PRESUMED from general knowledge of the LC-3 by the spec itself (D1, D2, log 4). -/

namespace Sys2Proof

/-- The sixteen opcodes, `ir[15:12]` (R87). `jsr` is the opcode of both JSR and JSRR. -/
inductive Opcode where
  | br | add | ld | st | jsr | and | ldr | str | rti | not | ldi | sti | jmp | res | lea | trap
  deriving DecidableEq, Repr

/-- The opcode map of R87, in the order of the values of `ir[15:12]`: 0x0 to 0xF. -/
def opcodeMap : Vector Opcode 16 :=
  #v[.br, .add, .ld, .st, .jsr, .and, .ldr, .str, .rti, .not, .ldi, .sti, .jmp, .res, .lea, .trap]

/-- The opcode of a value of `ir[15:12]` (R87). -/
def Opcode.ofBits (b : BitVec 4) : Opcode := opcodeMap.get b.toFin

/-- `ir[15:12]` (R81). -/
def fieldOpcode (w : Word) : BitVec 4 := w.extractLsb' 12 4

/-- The 3-bit number of a field as a register number (R83). -/
def regOfBits (b : BitVec 3) : RegIdx := b.toFin

/-- A register number as the 3 bits of its field (R83). -/
def bitsOfReg (r : RegIdx) : BitVec 3 := BitVec.ofFin (w := 3) r

/-- DR or SR, `ir[11:9]` (R83). -/
def fieldDR (w : Word) : RegIdx := regOfBits (w.extractLsb' 9 3)

/-- SR1 or BaseR, `ir[8:6]` (R83). -/
def fieldSR1 (w : Word) : RegIdx := regOfBits (w.extractLsb' 6 3)

/-- SR2, `ir[2:0]` (R83). -/
def fieldSR2 (w : Word) : RegIdx := regOfBits (w.extractLsb' 0 3)

/-- The condition mask of BR, `ir[11:9]` (R86). -/
def fieldNzp (w : Word) : BitVec 3 := w.extractLsb' 9 3

/-- imm5, `ir[4:0]` (R84). -/
def fieldImm5 (w : Word) : BitVec 5 := w.extractLsb' 0 5

/-- offset6, `ir[5:0]` (R84). -/
def fieldOff6 (w : Word) : BitVec 6 := w.extractLsb' 0 6

/-- offset9, `ir[8:0]` (R84). -/
def fieldOff9 (w : Word) : BitVec 9 := w.extractLsb' 0 9

/-- offset11, `ir[10:0]` (R84). -/
def fieldOff11 (w : Word) : BitVec 11 := w.extractLsb' 0 11

/-- trapvect8, `ir[7:0]` (R84, R88). -/
def fieldVector (w : Word) : BitVec 8 := w.extractLsb' 0 8

/-- The mode bit of ADD and AND, `ir[5]`: 1 selects the immediate (R85). -/
def modeImm (w : Word) : Bool := w.getLsbD 5

/-- The mode bit of opcode 4, `ir[11]`: 1 selects JSR, 0 JSRR (R85). -/
def modeLong (w : Word) : Bool := w.getLsbD 11

/-- The routine a trap vector selects (R88); every other vector is the unknown-vector row (R89, R167). -/
def decodeTrap (v : BitVec 8) : Instr :=
  if v = 0x20#8 then .getc
  else if v = 0x21#8 then .out
  else if v = 0x22#8 then .puts
  else if v = 0x23#8 then .inOp
  else if v = 0x24#8 then .putsp
  else if v = 0x25#8 then .halt
  else .trapUnknown v

/-- The instruction of a word with a known opcode: by `ir[5]` for ADD and AND, `ir[11]` for opcode 4 and `ir[7:0]` for TRAP
(R89). -/
def decodeAs (o : Opcode) (w : Word) : Instr :=
  match o with
  | .br => .br (fieldNzp w) (fieldOff9 w)
  | .add => if modeImm w then .addImm (fieldDR w) (fieldSR1 w) (fieldImm5 w) else .addReg (fieldDR w) (fieldSR1 w) (fieldSR2 w)
  | .ld => .ld (fieldDR w) (fieldOff9 w)
  | .st => .st (fieldDR w) (fieldOff9 w)
  | .jsr => if modeLong w then .jsr (fieldOff11 w) else .jsrr (fieldSR1 w)
  | .and => if modeImm w then .andImm (fieldDR w) (fieldSR1 w) (fieldImm5 w) else .andReg (fieldDR w) (fieldSR1 w) (fieldSR2 w)
  | .ldr => .ldr (fieldDR w) (fieldSR1 w) (fieldOff6 w)
  | .str => .str (fieldDR w) (fieldSR1 w) (fieldOff6 w)
  | .rti => .rti
  | .not => .notOp (fieldDR w) (fieldSR1 w)
  | .ldi => .ldi (fieldDR w) (fieldOff9 w)
  | .sti => .sti (fieldDR w) (fieldOff9 w)
  | .jmp => .jmp (fieldSR1 w)
  | .res => .res
  | .lea => .lea (fieldDR w) (fieldOff9 w)
  | .trap => decodeTrap (fieldVector w)

/-- DECODE (R113): by `ir[15:12]`, then as the opcode says. Reads no state and cannot fail. -/
def decode (w : Word) : Instr := decodeAs (Opcode.ofBits (fieldOpcode w)) w

/-- What the decoder reads from an instruction whose `nbits` bits are `w`, bit 0 the least significant bit of its one word
(R10, R80); bits from `nbits` up are 0. Never `none`: every word decodes (R89). -/
def decodeTableWord (nbits w : Nat) : Option Instr :=
  some (decode (BitVec.ofNat 16 (w % 2 ^ nbits)))

/-- A field's bits at their place in the word: bit 0 of the field at bit `lo` (R10, R82). -/
def place {n : Nat} (lo : Nat) (f : BitVec n) : Word := f.setWidth 16 <<< lo

/-- A TRAP word with the canonical zero in `ir[11:8]` (R88, R92). -/
def trapWord (v : BitVec 8) : Word := 0xF000#16 ||| place 0 v

/-- The instruction word of a well-formed instruction (layouts of R82, opcodes of R87), with the canonical value in each
ignored bit: zero, but ones in `ir[5:0]` of NOT (R92). -/
def encode : Instr → Word
  | .br nzp off => 0x0000#16 ||| place 9 nzp ||| place 0 off
  | .addReg dr sr1 sr2 => 0x1000#16 ||| place 9 (bitsOfReg dr) ||| place 6 (bitsOfReg sr1) ||| place 0 (bitsOfReg sr2)
  | .addImm dr sr1 imm => 0x1020#16 ||| place 9 (bitsOfReg dr) ||| place 6 (bitsOfReg sr1) ||| place 0 imm
  | .ld dr off => 0x2000#16 ||| place 9 (bitsOfReg dr) ||| place 0 off
  | .st sr off => 0x3000#16 ||| place 9 (bitsOfReg sr) ||| place 0 off
  | .jsr off => 0x4800#16 ||| place 0 off
  | .jsrr base => 0x4000#16 ||| place 6 (bitsOfReg base)
  | .andReg dr sr1 sr2 => 0x5000#16 ||| place 9 (bitsOfReg dr) ||| place 6 (bitsOfReg sr1) ||| place 0 (bitsOfReg sr2)
  | .andImm dr sr1 imm => 0x5020#16 ||| place 9 (bitsOfReg dr) ||| place 6 (bitsOfReg sr1) ||| place 0 imm
  | .ldr dr base off => 0x6000#16 ||| place 9 (bitsOfReg dr) ||| place 6 (bitsOfReg base) ||| place 0 off
  | .str sr base off => 0x7000#16 ||| place 9 (bitsOfReg sr) ||| place 6 (bitsOfReg base) ||| place 0 off
  | .rti => 0x8000#16
  | .notOp dr sr1 => 0x9000#16 ||| place 9 (bitsOfReg dr) ||| place 6 (bitsOfReg sr1) ||| place 0 0b111111#6
  | .ldi dr off => 0xA000#16 ||| place 9 (bitsOfReg dr) ||| place 0 off
  | .sti sr off => 0xB000#16 ||| place 9 (bitsOfReg sr) ||| place 0 off
  | .jmp base => 0xC000#16 ||| place 6 (bitsOfReg base)
  | .res => 0xD000#16
  | .lea dr off => 0xE000#16 ||| place 9 (bitsOfReg dr) ||| place 0 off
  | .getc => trapWord 0x20#8
  | .out => trapWord 0x21#8
  | .puts => trapWord 0x22#8
  | .inOp => trapWord 0x23#8
  | .putsp => trapWord 0x24#8
  | .halt => trapWord 0x25#8
  | .trapUnknown v => trapWord v

/-- Which bits of an instruction's word the hardware examines: 1 where the table of R82 has a field or a fixed bit, 0 where it
has `-` (R91). -/
def examinedBits : Instr → Word
  | .br _ _ => 0xFFFF#16
  | .addReg _ _ _ => 0xFFE7#16
  | .addImm _ _ _ => 0xFFFF#16
  | .ld _ _ => 0xFFFF#16
  | .st _ _ => 0xFFFF#16
  | .jsr _ => 0xFFFF#16
  | .jsrr _ => 0xF9C0#16
  | .andReg _ _ _ => 0xFFE7#16
  | .andImm _ _ _ => 0xFFFF#16
  | .ldr _ _ _ => 0xFFFF#16
  | .str _ _ _ => 0xFFFF#16
  | .rti => 0xF000#16
  | .notOp _ _ => 0xFFC0#16
  | .ldi _ _ => 0xFFFF#16
  | .sti _ _ => 0xFFFF#16
  | .jmp _ => 0xF1C0#16
  | .res => 0xF000#16
  | .lea _ _ => 0xFFFF#16
  | .getc => 0xF0FF#16
  | .out => 0xF0FF#16
  | .puts => 0xF0FF#16
  | .inOp => 0xF0FF#16
  | .putsp => 0xF0FF#16
  | .halt => 0xF0FF#16
  | .trapUnknown _ => 0xF0FF#16

end Sys2Proof
end

