-- ==== Sys2Proof/Config.lean ====
section
/-! DEFINITION. The constants of the one configuration the spec describes (R7, R8, R9). Three of them are the spec's named
parameters, given the value the spec decided: `resetGpr` (D4), `resetCond` (D5), `invalidOpcodeLinksR7` (D8). No value of
this hardware is left free (end of `spec/92_eei_decisions.md`), so nothing here is opaque. -/

namespace Sys2Proof.Config

/-- PC after reset, and so every program's entry point (R40, R221). -/
def resetPc : Word := 0x3000#16

/-- RESET_GPR, the reset value of R0 to R7. DESIGN CHOICE of the spec (R42, D4), log 2; unsafe. -/
def resetGpr : Word := 0x0000#16

/-- RESET_COND, the reset value of COND: ZRO. DESIGN CHOICE of the spec (R41, D5), log 3; unsafe. -/
def resetCond : BitVec 3 := 0b010#3

/-- INVALID_OPCODE_LINKS_R7: whether the fallback of RTI and RES writes R7. DEDUCED by the spec (R180, D8), log 7; unsafe. -/
def invalidOpcodeLinksR7 : Bool := true

/-- KBSR, the keyboard status word, whose read polls the console input (R52, R55). -/
def kbsr : Addr := 0xFE00#16

/-- KBDR, the keyboard data word, which the poll writes (R52, R57). -/
def kbdr : Addr := 0xFE02#16

/-- What KBSR becomes when a poll took a byte (R55). The whole word is written: log 8. -/
def kbsrReady : Word := 0x8000#16

/-- What KBSR becomes when no byte was pending (R55). The whole word is written: log 8. -/
def kbsrIdle : Word := 0x0000#16

end Sys2Proof.Config
end

