-- ==== Sys2Proof/Machine/State.lean ====
section
/-! DEFINITION. The machine's state, whole: exactly the architectural and environment state of R20 and R37, as plain data.
Nothing else survives a step (R39). -/

namespace Sys2Proof.Machine

/-- One listed word of memory: its address and its value. The unit is the 16-bit word, the smallest addressable one (R51);
there are no byte addresses (log 1). -/
abbrev Cell := Nat × Word

/-- The 65536-word memory (R50): the words that differ from `unlistedWord`, in rising order of address. The canonical form is
`Memory.wf` of `Machine/Ops.lean`. -/
abbrev Memory := List Cell

/-- State of the core and of its console (R20, R37). KBSR and KBDR are the memory words 0xFE00 and 0xFE02 and are stored
nowhere else (R34). -/
structure State where
  /-- R0 to R7 (R21). -/
  regs : Vector Word 8
  /-- The program counter (R26). -/
  pc : Word
  /-- COND: bit 2 NEG, bit 1 ZRO, bit 0 POS (R29). -/
  cond : BitVec 3
  /-- RUN: true while the core executes instructions (R32). -/
  run : Bool
  /-- MEM (R36, R50). -/
  mem : Memory
  /-- KBD_IN: the input bytes supplied and not yet taken, the first to be taken at the head (R37). -/
  kbdIn : List Byte
  /-- CON_OUT: every byte output since reset, in order (R37). -/
  conOut : List Byte
  deriving DecidableEq, Repr

/-- Why the machine may stop. The spec has no fault (R190, R209); its one instruction that might not complete is a string
walk over memory without a zero word (U21). -/
inductive Fault where
  /-- PUTS or PUTSP read no zero word within the walk's bound (R163, R165, U21). Raised by `printString` only, and never from
  any state: the poll of 0xFE00 ends every walk once the input queue is empty (log 18). Safe. -/
  | stringWalkUnending
  deriving DecidableEq, Repr

/-- Why an instruction may have no meaning. The spec needs no refusal (R209). -/
inductive Refusal where
  /-- The instruction with this mnemonic has no meaning in the model yet. Raised by refused arms of `exec` only, of which there
  are none. Safe. -/
  | notModelled (mnemonic : String)
  deriving DecidableEq, Repr

/-- The outcome of executing an instruction. -/
abbrev Result := Host.Outcome State Fault Refusal

/-- The state after reset (R46, R220): PC 0x3000 (R40), RUN 1 (R43), memory all zero, so nothing listed (R44), empty console
(R45); R0 to R7 and COND at the values the spec decided (R41, R42: DESIGN CHOICE, log 2 and 3; unsafe). -/
def State.reset : State where
  regs := #v[Config.resetGpr, Config.resetGpr, Config.resetGpr, Config.resetGpr,
             Config.resetGpr, Config.resetGpr, Config.resetGpr, Config.resetGpr]
  pc := Config.resetPc
  cond := Config.resetCond
  run := true
  mem := []
  kbdIn := []
  conOut := []

end Sys2Proof.Machine
end

