-- ==== Sys2Proof/Machine/Flags.lean ====
section
/-! DEFINITION. The condition register COND (R29, R30): its three codes and the one computation that writes it (R14). -/

namespace Sys2Proof.Machine

/-- NEG, bit 2 (R29). -/
def condNeg : BitVec 3 := 0b100#3

/-- ZRO, bit 1 (R29). -/
def condZro : BitVec 3 := 0b010#3

/-- POS, bit 0 (R29). -/
def condPos : BitVec 3 := 0b001#3

/-- The code `setcc` gives for a word (R14): ZRO for zero, NEG when bit 15 is 1, POS otherwise. -/
def condOf (v : Word) : BitVec 3 :=
  if v = 0x0000#16 then condZro else if v.getLsbD 15 then condNeg else condPos

/-- COND is written. -/
def State.setCond (c : BitVec 3) (s : State) : State := { s with cond := c }

/-- `setcc(v)` (R14). -/
def State.setcc (v : Word) (s : State) : State := s.setCond (condOf v)

/-- The test of BR: `(ir[11:9] & cond) != 0` (R86, R130). -/
def condTest (nzp cond : BitVec 3) : Bool := nzp &&& cond != 0b000#3

end Sys2Proof.Machine
end

