-- ==== Sys2Proof/Machine/Ops.lean ====
section
/-! DEFINITION. The operations every meaning is built from: registers (R12), memory with the keyboard poll (R55, R56), the
console (R15), the halt sequence (R16), the fetch with its increment (R111, R112), the common part of a trap, which is all this
hardware has of taking an exception (R160, R197), and waiting for input (R116). -/

namespace Sys2Proof.Machine

/-! ## Memory as data -/

/-- What an address reads as that nothing has been written to: memory is zero after reset (R44). -/
def unlistedWord : Word := 0x0000#16

/-- The stored word `MEM[a]`, without side effect (R12). -/
def Memory.read : Memory → Addr → Word
  | [], _ => unlistedWord
  | c :: m, a => if c.1 = a.toNat then c.2 else Memory.read m a

/-- A memory with no entry for one address. -/
def Memory.erase : Memory → Nat → Memory
  | [], _ => []
  | c :: m, k => if c.1 = k then Memory.erase m k else c :: Memory.erase m k

/-- A memory with an entry put before the first entry of a higher address. -/
def Memory.insert : Memory → Nat → Word → Memory
  | [], k, v => [(k, v)]
  | c :: m, k, v => if k < c.1 then (k, v) :: c :: m else c :: Memory.insert m k v

/-- `MEM[a] <- v` (R56). Writing what an unlisted address reads as removes the entry, so the form stays canonical. -/
def Memory.write (m : Memory) (a : Addr) (v : Word) : Memory :=
  if v = unlistedWord then Memory.erase m a.toNat else Memory.insert (Memory.erase m a.toNat) a.toNat v

/-- The canonical form: addresses strictly rising and below 65536 (R50), and no entry equal to what an unlisted address reads
as. -/
def Memory.wf (m : Memory) : Bool :=
  decide (m.Pairwise fun c d => c.1 < d.1) && m.all fun c => decide (c.1 < 65536) && c.2 != unlistedWord

/-! ## Single updates -/

/-- `x[r]` (R12). -/
def State.getReg (s : State) (r : RegIdx) : Word := s.regs.get r

/-- `x[r] <- v` (R12). No register is hard-wired (R21). -/
def State.setReg (r : RegIdx) (v : Word) (s : State) : State := { s with regs := s.regs.set r.val v r.isLt }

/-- `pc <- v` (R12). -/
def State.setPc (v : Word) (s : State) : State := { s with pc := v }

/-- RUN is written. -/
def State.setRun (b : Bool) (s : State) : State := { s with run := b }

/-- KBD_IN is replaced. -/
def State.setKbdIn (bs : List Byte) (s : State) : State := { s with kbdIn := bs }

/-- `ConOut` of each byte in turn (R15): appended to CON_OUT; never blocks, never fails (D12, D14). -/
def State.conPut (bs : List Byte) (s : State) : State := { s with conOut := s.conOut ++ bs }

/-- `MemWrite(a, 16, v)` (R56): a plain store at every address, 0xFE00 and 0xFE02 included (R61). -/
def State.memWrite (a : Addr) (v : Word) (s : State) : State := { s with mem := s.mem.write a v }

/-- `x[dr] <- v; setcc(v)`: the end of every instruction that sets COND (R14, R30). -/
def State.setRegCC (dr : RegIdx) (v : Word) (s : State) : State := (s.setReg dr v).setcc v

/-! ## Console input and the keyboard words -/

/-- `KbdTake()` where `KbdAvail()` holds, nothing where it does not (R15): the first byte of KBD_IN and the state without it. -/
def State.kbdTake (s : State) : Option (Byte × State) :=
  match s.kbdIn with
  | [] => none
  | b :: bs => some (b, s.setKbdIn bs)

/-- The keyboard poll (R57): takes a byte into KBDR and sets KBSR, or clears KBSR and leaves KBDR. Whole words are written
(R55, log 8), and it never waits (R58, log 10). -/
def State.kbdPoll (s : State) : State :=
  match s.kbdTake with
  | some (b, s') => (s'.memWrite Config.kbsr Config.kbsrReady).memWrite Config.kbdr (b.setWidth 16)
  | none => s.memWrite Config.kbsr Config.kbsrIdle

/-- The side effect a core read of an address has: the poll at 0xFE00, none elsewhere (R55, R60, log 9). -/
def State.readEffect (a : Addr) (s : State) : State :=
  if a = Config.kbsr then s.kbdPoll else s

/-- `MemRead(a, 16)` (R55): the word stored at `a` after the side effect of reading it, and the state after that side effect. -/
def State.memRead (a : Addr) (s : State) : Word × State :=
  ((s.readEffect a).mem.read a, s.readEffect a)

/-! ## Fetch -/

/-- FETCH and INCREMENT (R110 to R112): the instruction word, read with `MemRead`, and the state in which `pc` is the
incremented PC. -/
def State.fetch (s : State) : Word × State :=
  let r := s.memRead s.pc
  (r.1, r.2.setPc (s.pc + 1#16))

/-! ## Linking, traps and halting -/

/-- `x[7] <- pc`: the incremented PC into the link register (R23). COND is not touched (R30). -/
def State.link (s : State) : State := s.setReg 7 s.pc

/-- The four bytes of the halt message, `HALT` (R16, D15, log 13). -/
def haltMessage : List Byte := [0x48#8, 0x41#8, 0x4C#8, 0x54#8]

/-- `HaltSeq()` (R16): the message, then RUN is cleared. -/
def State.haltSeq (s : State) : State := (s.conPut haltMessage).setRun false

/-- TAKING A TRAP: the common part of every TRAP (R160), the only thing on this hardware that resembles exception entry
(R197). R7 receives the incremented PC; no status is saved, no mode or stack changes, PC is not redirected. There is no return
from a trap (R199): the next instruction is fetched from the PC the trap leaves. -/
def State.trapEntry (s : State) : State := s.link

/-- The halt fallback of an opcode without semantics (R180 to R182, R191): as TRAP HALT, the write of R7 included when the
spec's parameter INVALID_OPCODE_LINKS_R7 says so (D8, log 7). -/
def State.invalidOpcode (s : State) : State :=
  (if Config.invalidOpcodeLinksR7 then s.trapEntry else s).haltSeq

/-- An instruction that is not enabled for want of input (R116): the core waits, changing no state. `s` is the state after the
fetch, whose only change was the increment of `pc` (a TRAP word is never fetched from 0xFE00, R116), so taking the increment
back gives the state before the step; the next step tries the same instruction again (log 16). -/
def State.awaitInput (s : State) : State := s.setPc (s.pc - 1#16)

end Sys2Proof.Machine
end

