-- ==== Sys2Proof/Machine/Operands.lean ====
section
/-! DEFINITION. The operand forms: immediates and their extension (R13, R84), bytes of words, and the three addressing modes
(R140). All sums are modulo 2^16 (R11, R65). -/

namespace Sys2Proof.Machine

/-- An immediate field as a 16-bit operand: sign-extended, never scaled (R84). -/
def sextField {n : Nat} (f : BitVec n) : Word := f.signExtend 16

/-- `sext_N(v)` (R13): the low `n` bits of a word as a two's complement number. -/
def sext (n : Nat) (v : Word) : Word := sextField (v.setWidth n)

/-- `zext_16(b)` (R13). -/
def zextByte (b : Byte) : Word := b.setWidth 16

/-- `w[7:0]`. -/
def lowByte (w : Word) : Byte := w.extractLsb' 0 8

/-- `w[15:8]`. -/
def highByte (w : Word) : Byte := w.extractLsb' 8 8

/-- The PC-relative address or target `pc + sext(off)`, from the incremented PC (R26, R140). -/
def State.pcRel {n : Nat} (off : BitVec n) (s : State) : Addr := s.pc + sextField off

/-- The base-plus-offset address `x[base] + sext_6(off)` (R140). The base register is not changed. -/
def State.baseRel (base : RegIdx) (off : BitVec 6) (s : State) : Addr := s.getReg base + sextField off

/-- The indirect address of LDI and STI (R140): the pointer word, read with `MemRead`, and the state after that read. -/
def State.indirect (off : BitVec 9) (s : State) : Addr × State := s.memRead (s.pcRel off)

end Sys2Proof.Machine
end

