-- ==== Sys2Proof/Machine/Control.lean ====
section
/-! DEFINITION. BR, JMP (RET), JSR, JSRR (`spec/42_control.md`). No delay slots, no target checks (R135); none writes COND
(R30). `s` is the state after fetch and increment (R110). -/

namespace Sys2Proof.Machine

/-- BR (R130): taken when the mask and COND share a bit. -/
def execBr (nzp : BitVec 3) (off : BitVec 9) (s : State) : Result :=
  .next (if condTest nzp s.cond then s.setPc (s.pcRel off) else s)

/-- JMP, and RET when the base is R7 (R131, R132). -/
def execJmp (base : RegIdx) (s : State) : Result :=
  .next (s.setPc (s.getReg base))

/-- JSR (R133): the target is relative to the incremented PC, which R7 receives. -/
def execJsr (off : BitVec 11) (s : State) : Result :=
  .next (s.link.setPc (s.pcRel off))

/-- JSRR (R134): R7 is written first and the base register read after it, so `JSRR R7` falls through (D7, log 6). -/
def execJsrr (base : RegIdx) (s : State) : Result :=
  .next (s.link.setPc (s.link.getReg base))

end Sys2Proof.Machine
end

