-- ==== Sys2Proof/Machine/LoadStore.lean ====
section
/-! DEFINITION. LD, LDI, LDR, LEA, ST, STI, STR (`spec/43_load_store.md`). Every read is a `MemRead` and polls at 0xFE00
(R60); every write is a `MemWrite` (R61). Accesses happen in the order of the pseudocode (R64). `s` is the state after fetch
and increment (R110). -/

namespace Sys2Proof.Machine

/-- `v <- MemRead(ea, 16); x[dr] <- v; setcc(v)`: the end of the three loads (R141 to R143). -/
def State.loadReg (dr : RegIdx) (ea : Addr) (s : State) : State :=
  (s.memRead ea).2.setRegCC dr (s.memRead ea).1

/-- LD (R141). -/
def execLd (dr : RegIdx) (off : BitVec 9) (s : State) : Result :=
  .next (s.loadReg dr (s.pcRel off))

/-- LDI (R142): the pointer read, then the data read, each of which polls if its address is 0xFE00. -/
def execLdi (dr : RegIdx) (off : BitVec 9) (s : State) : Result :=
  .next ((s.indirect off).2.loadReg dr (s.indirect off).1)

/-- LDR (R143): the base register is read before the destination is written. -/
def execLdr (dr base : RegIdx) (off : BitVec 6) (s : State) : Result :=
  .next (s.loadReg dr (s.baseRel base off))

/-- LEA (R144): no memory access; COND is set from the address. -/
def execLea (dr : RegIdx) (off : BitVec 9) (s : State) : Result :=
  .next (s.setRegCC dr (s.pcRel off))

/-- ST (R145). -/
def execSt (sr : RegIdx) (off : BitVec 9) (s : State) : Result :=
  .next (s.memWrite (s.pcRel off) (s.getReg sr))

/-- STI (R146): the pointer read (with its poll) comes before the write. -/
def execSti (sr : RegIdx) (off : BitVec 9) (s : State) : Result :=
  .next ((s.indirect off).2.memWrite (s.indirect off).1 (s.getReg sr))

/-- STR (R147). -/
def execStr (sr base : RegIdx) (off : BitVec 6) (s : State) : Result :=
  .next (s.memWrite (s.baseRel base off) (s.getReg sr))

end Sys2Proof.Machine
end

