-- ==== Sys2Proof/Machine/Operate.lean ====
section
/-! DEFINITION. ADD, AND, NOT (`spec/41_operate.md`). Sources are read before the destination is written, then COND is set
from the value written (R126). `s` is the state after fetch and increment (R110). -/

namespace Sys2Proof.Machine

/-- ADD, register form (R120). -/
def execAddReg (dr sr1 sr2 : RegIdx) (s : State) : Result :=
  .next (s.setRegCC dr (s.getReg sr1 + s.getReg sr2))

/-- ADD, immediate form (R121). -/
def execAddImm (dr sr1 : RegIdx) (imm : BitVec 5) (s : State) : Result :=
  .next (s.setRegCC dr (s.getReg sr1 + sextField imm))

/-- AND, register form (R122). -/
def execAndReg (dr sr1 sr2 : RegIdx) (s : State) : Result :=
  .next (s.setRegCC dr (s.getReg sr1 &&& s.getReg sr2))

/-- AND, immediate form (R123): the immediate is sign-extended first. -/
def execAndImm (dr sr1 : RegIdx) (imm : BitVec 5) (s : State) : Result :=
  .next (s.setRegCC dr (s.getReg sr1 &&& sextField imm))

/-- NOT (R124). -/
def execNot (dr sr1 : RegIdx) (s : State) : Result :=
  .next (s.setRegCC dr (~~~ s.getReg sr1))

end Sys2Proof.Machine
end

