-- ==== Sys2Proof/Machine/Reserved.lean ====
section
/-! DEFINITION. The opcodes without semantics, RTI and RES (`spec/45_reserved_opcodes.md`): each takes the halt fallback
(R182, R191). `s` is the state after fetch and increment (R110). -/

namespace Sys2Proof.Machine

/-- RTI, opcode 8 (R180). It returns from nothing: there are no interrupts (R199, R201). -/
def execRti (s : State) : Result :=
  .next s.invalidOpcode

/-- RES, opcode 13 (R181). -/
def execRes (s : State) : Result :=
  .next s.invalidOpcode

end Sys2Proof.Machine
end

