-- ==== Sys2Proof/Machine/Trap.lean ====
section
/-! DEFINITION. TRAP and its routines (`spec/44_trap.md`). A trap transfers no control: the hardware performs the routine
inside the instruction's own step, after the common part `trapEntry` (R160). `s` is the state after fetch and increment
(R110). -/

namespace Sys2Proof.Machine

/-- The 19 bytes of the prompt of IN, `Enter a character: ` (R164, D15, log 13). -/
def inPrompt : List Byte :=
  [0x45#8, 0x6E#8, 0x74#8, 0x65#8, 0x72#8, 0x20#8, 0x61#8, 0x20#8, 0x63#8, 0x68#8,
   0x61#8, 0x72#8, 0x61#8, 0x63#8, 0x74#8, 0x65#8, 0x72#8, 0x3A#8, 0x20#8]

/-- What PUTS outputs for a non-zero word: its low byte, even 0x00 (R163). -/
def putsBytes (w : Word) : List Byte := [lowByte w]

/-- What PUTSP outputs for a non-zero word: its low byte, even 0x00, then its high byte if that is non-zero (R165). -/
def putspBytes (w : Word) : List Byte :=
  if highByte w = 0x00#8 then [lowByte w] else [lowByte w, highByte w]

/-- The loop of PUTS and PUTSP (R163, R165) from address `a`: each word is read with `MemRead` (R60), a zero word ends it, the
address wraps (D16, log 15). `none` when `fuel` words held no zero word. -/
def stringWalk (emit : Word → List Byte) : Nat → Addr → State → Option State
  | 0, _, _ => none
  | fuel + 1, a, s =>
    let r := s.memRead a
    if r.1 = 0x0000#16 then some r.2 else stringWalk emit fuel (a + 1#16) (r.2.conPut (emit r.1))

/-- A bound no walk exceeds: every lap of the address space reads 0xFE00 once, which takes a pending byte or, when none is left,
reads zero and ends the walk (R55, R163); so there are at most as many full laps as pending bytes (log 18). -/
def walkBound (s : State) : Nat := 65536 * (s.kbdIn.length + 1)

/-- The string output from the address in R0 (R24, R163, R165). -/
def printString (emit : Word → List Byte) (s : State) : Result :=
  match stringWalk emit (walkBound s) (s.getReg 0) s with
  | some t => .next t
  | none => .fault .stringWalkUnending

/-- GETC, TRAP x20 (R161): a byte, zero-extended (D13, log 12), into R0; not enabled without input (R116, log 16). -/
def execGetc (s : State) : Result :=
  match s.trapEntry.kbdTake with
  | some (b, t) => .next (t.setRegCC 0 (zextByte b))
  | none => .next s.awaitInput

/-- OUT, TRAP x21 (R162): the low byte of R0. -/
def execOut (s : State) : Result :=
  .next (s.trapEntry.conPut [lowByte (s.trapEntry.getReg 0)])

/-- PUTS, TRAP x22 (R163): one character per word. -/
def execPuts (s : State) : Result :=
  printString putsBytes s.trapEntry

/-- IN, TRAP x23 (R164): prompt, byte, echo, R0; not enabled without input, the prompt included (R116, log 16). -/
def execIn (s : State) : Result :=
  match (s.trapEntry.conPut inPrompt).kbdTake with
  | some (b, t) => .next ((t.conPut [b]).setRegCC 0 (zextByte b))
  | none => .next s.awaitInput

/-- PUTSP, TRAP x24 (R165): two characters per word. -/
def execPutsp (s : State) : Result :=
  printString putspBytes s.trapEntry

/-- HALT, TRAP x25 (R166). -/
def execHalt (s : State) : Result :=
  .next s.trapEntry.haltSeq

/-- TRAP with any other vector (R167, R192): as HALT, whatever the vector. -/
def execTrapUnknown (_vector : BitVec 8) (s : State) : Result :=
  .next s.trapEntry.haltSeq

end Sys2Proof.Machine
end

