-- ==== Sys2Proof/Machine/Dispatch.lean ====
section
/-! DEFINITION. EXECUTE (R114): one meaning per instruction. `s` is the state after fetch and increment, so `s.pc` is the
address of the instruction plus one (R110, R112). -/

namespace Sys2Proof.Machine

def exec (i : Instr) (s : State) : Host.Outcome State Fault Refusal :=
  match i with
  -- operate
  | .addReg dr sr1 sr2 => Sys2Proof.Machine.execAddReg dr sr1 sr2 s
  | .addImm dr sr1 imm => Sys2Proof.Machine.execAddImm dr sr1 imm s
  | .andReg dr sr1 sr2 => Sys2Proof.Machine.execAndReg dr sr1 sr2 s
  | .andImm dr sr1 imm => Sys2Proof.Machine.execAndImm dr sr1 imm s
  | .notOp dr sr1 => Sys2Proof.Machine.execNot dr sr1 s
  -- control
  | .br nzp off => Sys2Proof.Machine.execBr nzp off s
  | .jmp base => Sys2Proof.Machine.execJmp base s
  | .jsr off => Sys2Proof.Machine.execJsr off s
  | .jsrr base => Sys2Proof.Machine.execJsrr base s
  -- loads, LEA, stores
  | .ld dr off => Sys2Proof.Machine.execLd dr off s
  | .ldi dr off => Sys2Proof.Machine.execLdi dr off s
  | .ldr dr base off => Sys2Proof.Machine.execLdr dr base off s
  | .lea dr off => Sys2Proof.Machine.execLea dr off s
  | .st sr off => Sys2Proof.Machine.execSt sr off s
  | .sti sr off => Sys2Proof.Machine.execSti sr off s
  | .str sr base off => Sys2Proof.Machine.execStr sr base off s
  -- traps
  | .getc => Sys2Proof.Machine.execGetc s
  | .out => Sys2Proof.Machine.execOut s
  | .puts => Sys2Proof.Machine.execPuts s
  | .inOp => Sys2Proof.Machine.execIn s
  | .putsp => Sys2Proof.Machine.execPutsp s
  | .halt => Sys2Proof.Machine.execHalt s
  | .trapUnknown vector => Sys2Proof.Machine.execTrapUnknown vector s
  -- opcodes without semantics
  | .rti => Sys2Proof.Machine.execRti s
  | .res => Sys2Proof.Machine.execRes s

end Sys2Proof.Machine
end

