-- ==== Sys2Proof/Machine/Step.lean ====
section
/-! DEFINITION. The one transition of the machine (R110): fetch, increment, decode, execute, atomically; and the placing of a
word where the next step fetches. -/

namespace Sys2Proof.Machine

/-- One step (R110). While RUN is 1: the word at `pc` is fetched, `pc` incremented, the word decoded and executed. When RUN is 0
the core has no step and all state keeps its value (R32): the outcome is the same state (log 17). -/
def step (s : State) : Host.Outcome State Fault Refusal :=
  if s.run then exec (decode s.fetch.1) s.fetch.2 else .next s

/-- The address the next step can be given an instruction at: `pc`, but the reset PC where `pc` is 0xFE00, from which only
0x8000 or 0x0000 can ever be fetched (R111). -/
def State.fetchPlace (s : State) : Addr := if s.pc = Config.kbsr then Config.resetPc else s.pc

/-- The state in which the very next step fetches and runs the instruction whose `nbits` bits are `w` (R10, R80): its one word
stands where the step fetches, and RUN is 1. It stands for the host's load (R222, log 19). -/
def State.withFetchWord (s : State) (nbits w : Nat) : State :=
  ((s.setPc s.fetchPlace).setRun true).memWrite s.fetchPlace (BitVec.ofNat 16 (w % 2 ^ nbits))

end Sys2Proof.Machine
end

