-- ==== Sys2Proof/Machine/Launch.lean ====
section
/-! DEFINITION. The host's moves (R222 to R224, R227): loading images before the first step, and supplying input between two
steps. None is part of a step. -/

namespace Sys2Proof.Machine

/-- A program as the host loads it: an origin address and words placed from there on (R223). -/
structure Image where
  origin : Addr
  words : List Word
  deriving DecidableEq, Repr

/-- The words of a big-endian byte sequence, most significant byte first (R223). `none` for an odd trailing byte, of which the
source says nothing (U17, log 22). -/
def wordsOfBytes : List Byte → Option (List Word)
  | [] => some []
  | [_] => none
  | hi :: lo :: bs => (wordsOfBytes bs).map fun ws => (hi ++ lo) :: ws

/-- An image file: the origin word, then the words to place (R223). -/
def imageOfBytes (bs : List Byte) : Option Image :=
  match wordsOfBytes bs with
  | some (origin :: words) => some ⟨origin, words⟩
  | some [] => none
  | none => none

/-- The launch condition `origin + length <= 65536` (R224). -/
def Image.fits (im : Image) : Bool := im.origin.toNat + im.words.length ≤ 65536

/-- Repeated single-word writes from an address upward (R222). The host's write port is `MemWrite`. -/
def State.loadWords : Addr → List Word → State → State
  | _, [], s => s
  | a, w :: ws, s => State.loadWords (a + 1#16) ws (s.memWrite a w)

/-- The state the core starts from when these images, in this order, are loaded after reset (R222): a later write overwrites an
earlier one. `none` when an image runs past 0xFFFF, a launch outside the hardware's defined behaviour (R224). -/
def launch (images : List Image) : Option State :=
  if images.all Image.fits then
    some (images.foldl (fun s im => s.loadWords im.origin im.words) State.reset)
  else none

/-- The host appends bytes to the back of KBD_IN, between two steps (R37, R227). -/
def State.feed (bs : List Byte) (s : State) : State := s.setKbdIn (s.kbdIn ++ bs)

end Sys2Proof.Machine
end

