-- ==== Sys2Proof/Safety.lean ====
section
/-! DEFINITION. What a run is and what holds in all of it: the step outcomes of R19 kept distinct, the states a run reaches
(R222, R227), and the invariant of the machine. -/

namespace Sys2Proof.Machine

/-- An instruction that needs an input byte to be enabled: TRAP GETC or TRAP IN (R116). -/
def needsInput : Instr → Bool
  | .getc => true
  | .inOp => true
  | .br _ _ | .addReg _ _ _ | .addImm _ _ _ | .ld _ _ | .st _ _ | .jsr _ | .jsrr _ | .andReg _ _ _ | .andImm _ _ _
  | .ldr _ _ _ | .str _ _ _ | .rti | .notOp _ _ | .ldi _ _ | .sti _ _ | .jmp _ | .res | .lea _ _ | .out | .puts | .putsp
  | .halt | .trapUnknown _ => false

/-- An instruction that halts the machine (R115): TRAP HALT, TRAP with an unknown vector, RTI, RES. -/
def halts : Instr → Bool
  | .halt => true
  | .trapUnknown _ => true
  | .rti => true
  | .res => true
  | .br _ _ | .addReg _ _ _ | .addImm _ _ _ | .ld _ _ | .st _ _ | .jsr _ | .jsrr _ | .andReg _ _ _ | .andImm _ _ _
  | .ldr _ _ _ | .str _ _ _ | .notOp _ _ | .ldi _ _ | .sti _ _ | .jmp _ | .lea _ _ | .getc | .out | .puts | .inOp
  | .putsp => false

/-- The machine is waiting (R19c, R116): it runs, KBD_IN is empty, and the word the fetch would return is GETC or IN. At 0xFE00
an empty queue makes the fetch return 0x0000, so it never waits there. -/
def State.waiting (s : State) : Bool :=
  s.run && s.kbdIn.isEmpty && s.pc != Config.kbsr && needsInput (decode (s.mem.read s.pc))

/-- The step outcomes of R19, and a machine that stopped for a reason the spec does not have. -/
inductive StepKind where
  /-- The instruction completes and RUN is still 1 (R19a). -/
  | completed
  /-- RUN is 0: the instruction halted the machine, or it was halted already (R19b, R32). -/
  | halted
  /-- The core has no step until a byte arrives (R19c). -/
  | waiting
  /-- A fault or a refusal: none arises (R209). -/
  | stopped
  deriving DecidableEq, Repr

/-- Which outcome the step from a state has (R19). -/
def stepKind (s : State) : StepKind :=
  if s.waiting then .waiting
  else match step s with
    | .next t => if t.run then .completed else .halted
    | .fault _ => .stopped
    | .refused _ => .stopped

/-- COND holds exactly one of its three codes (R31). -/
def condOneHot (c : BitVec 3) : Bool := c == condNeg || c == condZro || c == condPos

/-- What a halted machine has left behind (R115, R228): R7 holds the same address as PC, and CON_OUT ends with `HALT`. -/
def State.haltedRight (s : State) : Prop := s.getReg 7 = s.pc ∧ haltMessage <:+ s.conOut

/-- The invariant of the machine: canonical memory, a one-hot COND (R31), and a halt that left what it must (R115, R228). -/
structure Inv (s : State) : Prop where
  memory : s.mem.wf = true
  oneHot : condOneHot s.cond = true
  halted : s.run = false → s.haltedRight

/-- The states a run reaches: a launch (R222), then steps of the core and, between them, bytes the host supplies (R227). -/
inductive Reachable : State → Prop where
  | launched {images : List Image} {s : State} (h : launch images = some s) : Reachable s
  | stepped {s t : State} (r : Reachable s) (h : step s = .next t) : Reachable t
  | fed {s : State} (r : Reachable s) (bs : List Byte) : Reachable (s.feed bs)

/-- A safe run never stops with a fault or a refusal: from every state it reaches there is a next state (R209). -/
def SafeFrom (s : State) : Prop := ∃ t, step s = .next t

end Sys2Proof.Machine
end

