-- ==== Sys2Proof/Certificates/Slice0/Obligations.lean ====
section
/-! DEFINITION. The statements for the provers, from the numbered rules of `spec/`. The vocabulary comes first: it says results
in numbers and reads, not in the operations the meanings are built from. Below, `s` in a statement about `exec` is the state
after fetch and increment, so `s.pc` is the incremented PC (R110, R112). An encoding clause rests on opcode numbers and field
positions the spec took from general knowledge (D1, D2, log 4). -/

namespace Sys2Proof.Claims

open Sys2Proof.Machine

/-- The code of COND for a value, by R14's equivalent statement: zero, at least 0x8000, otherwise. -/
def codeOf (v : Word) : BitVec 3 :=
  if v.toNat = 0 then 0b010#3 else if 0x8000 ≤ v.toNat then 0b100#3 else 0b001#3

/-- The number of the register a 3-bit field at bit `lo` names (R83). -/
def regAt (w : Word) (lo : Nat) : RegIdx := (w.extractLsb' lo 3).toFin

/-- The 16-bit word with the numeric value of a signed field (R13). -/
def signed {n : Nat} (f : BitVec n) : Word := BitVec.ofInt 16 f.toInt

/-- Every word of memory reads as before. -/
def SameMemory (s t : State) : Prop := ∀ a, t.mem.read a = s.mem.read a

/-- Every register but one is as before. -/
def SameRegsBut (d : RegIdx) (s t : State) : Prop := ∀ r, r ≠ d → t.getReg r = s.getReg r

/-- A result goes to a register and sets COND; PC, RUN, CON_OUT and the other registers are as before. -/
def WritesResult (d : RegIdx) (v : Word) (s t : State) : Prop :=
  t.getReg d = v ∧ t.cond = codeOf v ∧ SameRegsBut d s t ∧ t.pc = s.pc ∧ t.run = s.run ∧ t.conOut = s.conOut

/-- R7 receives the incremented PC; COND, PC and the other registers are as before (R160). -/
def Links (s t : State) : Prop :=
  t.getReg 7 = s.pc ∧ SameRegsBut 7 s t ∧ t.cond = s.cond ∧ t.pc = s.pc

/-- Nothing but memory and KBD_IN differs. -/
def SameOutsideMemory (s t : State) : Prop :=
  (∀ r, t.getReg r = s.getReg r) ∧ t.pc = s.pc ∧ t.cond = s.cond ∧ t.run = s.run ∧ t.conOut = s.conOut

/-- A core read of address `a` from `s` returns `v` and leaves `u` (R55, R57): the stored word and no change everywhere but at
0xFE00; there the poll, which takes the first pending byte or clears KBSR. -/
def CoreRead (a : Addr) (s : State) (v : Word) (u : State) : Prop :=
  (a ≠ 0xFE00#16 → v = s.mem.read a ∧ u = s) ∧
  (a = 0xFE00#16 → SameOutsideMemory s u ∧
    (s.kbdIn = [] → v = 0x0000#16 ∧ u.kbdIn = [] ∧
      ∀ b, u.mem.read b = if b = 0xFE00#16 then 0x0000#16 else s.mem.read b) ∧
    ∀ k ks, s.kbdIn = k :: ks → v = 0x8000#16 ∧ u.kbdIn = ks ∧
      ∀ b, u.mem.read b =
        if b = 0xFE00#16 then 0x8000#16 else if b = 0xFE02#16 then BitVec.ofNat 16 k.toNat else s.mem.read b)

/-- The loop of PUTS and PUTSP as a relation (R163, R165): from address `a` and state `s` it ends in state `t`. -/
inductive PrintWalk (emit : Word → List Byte) : Addr → State → State → Prop where
  | stop {a : Addr} {s u : State} (h : CoreRead a s 0x0000#16 u) : PrintWalk emit a s u
  | go {a : Addr} {s u t : State} {w : Word} (h : CoreRead a s w u) (hw : w ≠ 0x0000#16)
      (rest : PrintWalk emit (a + 1#16) { u with conOut := u.conOut ++ emit w } t) : PrintWalk emit a s t

/-- What PUTS outputs for a word (R163). -/
def putsOut (w : Word) : List Byte := [BitVec.ofNat 8 (w.toNat % 256)]

/-- What PUTSP outputs for a word (R165). -/
def putspOut (w : Word) : List Byte :=
  if w.toNat / 256 = 0 then [BitVec.ofNat 8 (w.toNat % 256)]
  else [BitVec.ofNat 8 (w.toNat % 256), BitVec.ofNat 8 (w.toNat / 256)]

/-- The bytes `HALT` (R16). -/
def haltBytes : List Byte := [0x48#8, 0x41#8, 0x4C#8, 0x54#8]

/-- The 19 bytes `Enter a character: ` (R164). -/
def promptBytes : List Byte :=
  [0x45#8, 0x6E#8, 0x74#8, 0x65#8, 0x72#8, 0x20#8, 0x61#8, 0x20#8, 0x63#8, 0x68#8, 0x61#8, 0x72#8, 0x61#8, 0x63#8,
   0x74#8, 0x65#8, 0x72#8, 0x3A#8, 0x20#8]

/-- The machine halts as by TRAP HALT: R7 linked, `HALT` output, RUN cleared, everything else as before (R166). -/
def HaltsAsTrap (s t : State) : Prop :=
  Links s t ∧ t.run = false ∧ t.conOut = s.conOut ++ haltBytes ∧ SameMemory s t ∧ t.kbdIn = s.kbdIn

/-- The register through which an instruction sets COND: DR of ADD, AND, NOT, LD, LDI, LDR, LEA, and R0 of GETC and IN (R30). -/
def condDest : Instr → Option RegIdx
  | .addReg dr _ _ | .addImm dr _ _ | .andReg dr _ _ | .andImm dr _ _ | .notOp dr _ => some dr
  | .ld dr _ | .ldi dr _ | .ldr dr _ _ | .lea dr _ => some dr
  | .getc | .inOp => some 0
  | .br _ _ | .jmp _ | .jsr _ | .jsrr _ | .st _ _ | .sti _ _ | .str _ _ _ => none
  | .out | .puts | .putsp | .halt | .trapUnknown _ | .rti | .res => none

/-- The word address an instruction stores to (R145 to R147); the pointer of STI is the one its read returns. -/
def storesTo (i : Instr) (s : State) : Option Addr :=
  match i with
  | .st _ off => some (s.pcRel off)
  | .sti _ off => some (s.indirect off).1
  | .str _ base off => some (s.baseRel base off)
  | .br _ _ | .jmp _ | .jsr _ | .jsrr _ | .addReg _ _ _ | .addImm _ _ _ | .andReg _ _ _ | .andImm _ _ _ | .notOp _ _ => none
  | .ld _ _ | .ldi _ _ | .ldr _ _ _ | .lea _ _ => none
  | .out | .puts | .putsp | .getc | .inOp | .halt | .trapUnknown _ | .rti | .res => none

/-- Whether the execute phase of an instruction reads memory (R63). -/
def readsMemory : Instr → Bool
  | .ld _ _ | .ldi _ _ | .ldr _ _ _ | .sti _ _ | .puts | .putsp => true
  | .br _ _ | .jmp _ | .jsr _ | .jsrr _ | .addReg _ _ _ | .addImm _ _ _ | .andReg _ _ _ | .andImm _ _ _ | .notOp _ _ => false
  | .lea _ _ | .st _ _ | .str _ _ _ | .out | .getc | .inOp | .halt | .trapUnknown _ | .rti | .res => false

/-- Where an instruction that completes leaves PC (R27). -/
def pcAfter (i : Instr) (s : State) : Addr :=
  match i with
  | .br nzp off => if nzp &&& s.cond = 0b000#3 then s.pc else s.pc + signed off
  | .jmp base => s.getReg base
  | .jsr off => s.pc + signed off
  | .jsrr base => if base = 7 then s.pc else s.getReg base
  | .addReg _ _ _ | .addImm _ _ _ | .andReg _ _ _ | .andImm _ _ _ | .notOp _ _ => s.pc
  | .ld _ _ | .ldi _ _ | .ldr _ _ _ | .lea _ _ | .st _ _ | .sti _ _ | .str _ _ _ => s.pc
  | .out | .puts | .putsp | .getc | .inOp | .halt | .trapUnknown _ | .rti | .res => s.pc

/-- An image covers an address (R223). -/
def covers (im : Image) (a : Addr) : Prop :=
  im.origin.toNat ≤ a.toNat ∧ a.toNat < im.origin.toNat + im.words.length

/-- A word as two bytes, most significant first (R223). -/
def bigEndian (w : Word) : List Byte := [BitVec.ofNat 8 (w.toNat / 256), BitVec.ofNat 8 (w.toNat % 256)]

end Sys2Proof.Claims

open Sys2Proof Sys2Proof.Machine Sys2Proof.Claims

/-! ## Encoding (R80 to R92) -/

/-- Decoding an encoded well-formed instruction gives it back, every operand at every value. Rests on the layouts of R82 and
the opcodes of R87, which are decisions D1 and D2 of the spec (log 4). -/
def Obligations.DecodeOfEncodeIsIdentity : Prop :=
  ∀ i : Instr, i.wellFormed = true → decode (encode i) = i

/-- Encoding a decoded word gives the word back on every bit the hardware examines, and what is decoded is well-formed: every
word has one meaning (R89, R91; D1 to D3, log 4, 5). -/
def Obligations.EncodeOfDecodeKeepsExaminedBits : Prop :=
  ∀ w : Word, (decode w).wellFormed = true ∧
    encode (decode w) &&& examinedBits (decode w) = w &&& examinedBits (decode w)

/-- Words that agree on the examined bits are the same instruction (R91; decision D3 of the spec, log 5). -/
def Obligations.IgnoredBitsDoNotChangeDecoding : Prop :=
  ∀ w w' : Word, w' &&& examinedBits (decode w) = w &&& examinedBits (decode w) → decode w' = decode w

/-- A few words written out from the layouts of R82, each with the instruction it stands for (vectors A1, A7, N1, T1, B1, L1, J2,
S1, S4, H1, H2 of `spec/95_test_vectors.md`; opcodes and positions D1, D2, log 4). -/
def Obligations.SpecWordsDecode : Prop :=
  decode 0b0001010011000100#16 = .addReg 2 3 4 ∧ decode 0b0001001001110000#16 = .addImm 1 1 0b10000#5 ∧
  decode 0b0101001010000011#16 = .andReg 1 2 3 ∧ decode 0b1001100101111111#16 = .notOp 4 5 ∧
  decode 0b0000001000000101#16 = .br 0b001#3 5#9 ∧ decode 0b0010001000000010#16 = .ld 1 2#9 ∧
  decode 0b1100000111000000#16 = .jmp 7 ∧ decode 0b0100100000010000#16 = .jsr 16#11 ∧
  decode 0b0100000101000000#16 = .jsrr 5 ∧ decode 0b1111000000100101#16 = .halt ∧
  decode 0b1111000011111111#16 = .trapUnknown 0xFF#8 ∧ decode 0b1000000000000000#16 = .rti

/-! ## The step (R110 to R116) -/

/-- A running core executes the decoded word in the state after fetch and increment (R110 to R113); from plain memory the fetch
changes nothing else. -/
def Obligations.StepRunsDecodedInstruction : Prop :=
  ∀ s : State, s.run = true →
    step s = exec (decode (s.memRead s.pc).1) { (s.memRead s.pc).2 with pc := s.pc + 1#16 } ∧
    ∀ i, s.pc ≠ 0xFE00#16 → decode (s.mem.read s.pc) = i → step s = exec i { s with pc := s.pc + 1#16 }

/-- A fetch from 0xFE00 polls first: with nothing pending a word that does nothing is executed; with a byte pending it is taken
and the machine halts (R111; that the fetch polls is decision D11, and that the word 0x8000 writes R7 decision D8: log 9, 7). -/
def Obligations.FetchFromKeyboardWordPolls : Prop :=
  ∀ s : State, s.run = true → s.pc = 0xFE00#16 →
    (s.kbdIn = [] → ∃ t, step s = .next t ∧ t.pc = 0xFE01#16 ∧ (∀ r, t.getReg r = s.getReg r) ∧ t.cond = s.cond ∧
      t.run = true ∧ t.conOut = s.conOut ∧ t.kbdIn = [] ∧
      ∀ b, t.mem.read b = if b = 0xFE00#16 then 0x0000#16 else s.mem.read b) ∧
    ∀ k ks, s.kbdIn = k :: ks → ∃ t, step s = .next t ∧ t.pc = 0xFE01#16 ∧ t.getReg 7 = 0xFE01#16 ∧ SameRegsBut 7 s t ∧
      t.cond = s.cond ∧ t.run = false ∧ t.conOut = s.conOut ++ haltBytes ∧ t.kbdIn = ks ∧
      ∀ b, t.mem.read b =
        if b = 0xFE00#16 then 0x8000#16 else if b = 0xFE02#16 then BitVec.ofNat 16 k.toNat else s.mem.read b

/-- A halted core keeps all its state, however often it is stepped (R32). That "no step" is the same state is the model's choice
(log 17). -/
def Obligations.HaltedCoreKeepsAllState : Prop :=
  ∀ (s : State) (k : Nat), s.run = false → Sys2Proof.core.run k s = .next s

/-- RUN falls exactly at TRAP HALT, TRAP with an unknown vector, RTI and RES; PC and R7 then hold the incremented PC and CON_OUT
has gained `HALT`; RUN never rises (R32, R115). R7 after RTI and RES is decision D8 (log 7). -/
def Obligations.RunFallsExactlyAtHaltingWords : Prop :=
  ∀ s t : State, step s = .next t →
    (s.run = false → t.run = false) ∧
    (s.run = true → (t.run = false ↔ halts (decode (s.memRead s.pc).1) = true)) ∧
    (s.run = true → t.run = false →
      t.pc = s.pc + 1#16 ∧ t.getReg 7 = s.pc + 1#16 ∧ t.conOut = s.conOut ++ haltBytes)

/-- GETC and IN without input wait, changing no state; with input appended the whole step happens at once (R116, decision D17).
That "no step" is the same state is the model's choice (log 16). -/
def Obligations.WaitingCoreChangesNothing : Prop :=
  ∀ s : State, s.run = true → s.kbdIn = [] → s.pc ≠ 0xFE00#16 →
    (decode (s.mem.read s.pc) = .getc ∨ decode (s.mem.read s.pc) = .inOp) →
    step s = .next s ∧
    ∀ b bs, ∃ t, step (s.feed (b :: bs)) = .next t ∧ t.getReg 0 = BitVec.ofNat 16 b.toNat ∧ t.getReg 7 = s.pc + 1#16 ∧
      t.pc = s.pc + 1#16 ∧ t.kbdIn = bs ∧ t.run = true

/-- From every state the step answers a next state: no fault and no refusal arises, PUTS and PUTSP included (R190, R209; that a
string walk ends is log 18). In a halted or a waiting state the spec says the core has no step (R19, R32, R116); that the model
answers a next state there, the same state, is its own choice (log 17, log 16). -/
def Obligations.EveryStepAnswersNext : Prop :=
  ∀ s : State, ∃ t, step s = .next t

/-! ## Invariants -/

/-- The reset state meets the invariant: canonical memory, one-hot COND (R31; the reset COND is decision D5, log 3). -/
def Obligations.InvariantHoldsAtReset : Prop := Inv State.reset

/-- Every step keeps the invariant: canonical memory; COND one-hot (R31); a halted machine has PC in R7 and `HALT` at the end of
CON_OUT (R115, R228; log 7, 13). -/
def Obligations.InvariantKeptByStep : Prop :=
  ∀ s t : State, Inv s → step s = .next t → Inv t

/-- The host's moves keep the invariant: loading images into reset memory (R222), and appending input (R227); which moves the
host has is decision D18 (log 19). That a launch state has a one-hot COND rests on the reset value of COND, which is decision D5
(R41, R31, log 3). -/
def Obligations.HostMovesKeepInvariant : Prop :=
  (∀ images s, launch images = some s → Inv s) ∧ ∀ (s : State) (bs : List Byte), Inv s → Inv (s.feed bs)

/-- Whatever images are loaded and whatever the host types, a run never stops with a fault or a refusal, COND is one-hot, and where
it has halted CON_OUT ends with `HALT` and R7 holds PC (R209, R31, R115, R228). The next state of a halted and of a waiting state
is the model's choice where the spec has no step (log 17, log 16); that a string walk ends is log 18; the one-hot COND rests on D5,
R7 after RTI and RES on D8, the message on D15, the host's moves on D18 (log 3, 7, 13, 19). -/
def Obligations.ReachableRunsAreSafe : Prop :=
  ∀ s : State, Reachable s →
    SafeFrom s ∧ condOneHot s.cond = true ∧ (s.run = false → haltBytes <:+ s.conOut ∧ s.getReg 7 = s.pc)

/-! ## Reset and loading -/

/-- PC starts at 0x3000 whatever is loaded, RUN at 1, and every word no image covers is zero (R40, R43, R44, R221). What a launch
is, a list of images loaded after reset, is decision D18 (log 19). -/
def Obligations.LaunchStartsAtFixedAddress : Prop :=
  State.reset.pc = 0x3000#16 ∧ State.reset.run = true ∧ (∀ a, State.reset.mem.read a = 0x0000#16) ∧
  ∀ images s, launch images = some s →
    s.pc = 0x3000#16 ∧ s.run = true ∧ ∀ a, (∀ im ∈ images, ¬ covers im a) → s.mem.read a = 0x0000#16

/-- Reset values the source does not state: R0 to R7 zero, COND ZRO, the console empty, and loading leaves them so. The model's
and the spec's choice: decisions D4, D5, D12 (log 2, 3, 11). -/
def Obligations.ResetOfUnstatedState : Prop :=
  ∀ images s, launch images = some s →
    (∀ r, s.getReg r = 0x0000#16) ∧ s.cond = 0b010#3 ∧ s.kbdIn = [] ∧ s.conOut = []

/-- The words of every image stand from its origin on, wherever no later image covers their address; a launch is refused exactly
when an image runs past 0xFFFF (R222 to R224; decision D18, log 19). -/
def Obligations.LaunchPlacesImages : Prop :=
  (∀ earlier im later s, launch (earlier ++ im :: later) = some s →
    ∀ (k : Nat) (h : k < im.words.length), (∀ l ∈ later, ¬ covers l (im.origin + BitVec.ofNat 16 k)) →
      s.mem.read (im.origin + BitVec.ofNat 16 k) = im.words[k]) ∧
  ∀ images, launch images = none ↔ ∃ im ∈ images, 65536 < im.origin.toNat + im.words.length

/-- An image file is its origin word and its words, each big-endian (R223); a file with an odd byte is none (log 22). -/
def Obligations.ImageFileIsBigEndian : Prop :=
  ∀ im : Image, imageOfBytes ((im.origin :: im.words).flatMap bigEndian) = some im ∧
    ∀ b, imageOfBytes ((im.origin :: im.words).flatMap bigEndian ++ [b]) = none

/-! ## Memory and the keyboard (R50 to R71) -/

/-- MemWrite stores at its address and does nothing else, at every address, the keyboard words included (R56). -/
def Obligations.MemWriteStoresAndNothingElse : Prop :=
  ∀ (s : State) (a : Addr) (v : Word),
    (∀ b, (s.memWrite a v).mem.read b = if b = a then v else s.mem.read b) ∧
    SameOutsideMemory s (s.memWrite a v) ∧ (s.memWrite a v).kbdIn = s.kbdIn

/-- Memories in canonical form that read the same everywhere are the same data. -/
def Obligations.CanonicalMemoriesAreEqual : Prop :=
  ∀ m n : Memory, m.wf = true → n.wf = true → (∀ a, m.read a = n.read a) → m = n

/-- A read of 0xFE00 polls: a pending byte is taken into KBDR and KBSR becomes 0x8000, or KBSR becomes 0 and KBDR stays; no other
read has an effect (R57). That whole words are written is decision D9 (log 8). -/
def Obligations.KeyboardPollOnRead : Prop :=
  ∀ (a : Addr) (s : State), CoreRead a s (s.memRead a).1 (s.memRead a).2

/-- What is stored is what is read next, but at 0xFE00, where the read polls and never gives the stored value back (R61, R148). -/
def Obligations.StoreThenReadRoundTrip : Prop :=
  ∀ (s : State) (a : Addr) (v : Word),
    (a ≠ 0xFE00#16 → ((s.memWrite a v).memRead a).1 = v) ∧
    (a = 0xFE00#16 → ((s.memWrite a v).memRead a).1 = if s.kbdIn = [] then 0x0000#16 else 0x8000#16)

/-- Two polls in a row with two bytes pending take both, and KBDR holds the second (R59). -/
def Obligations.SecondPollOverwritesFirst : Prop :=
  ∀ (s : State) (b c : Byte) (bs : List Byte), s.kbdIn = b :: c :: bs →
    ((s.memRead 0xFE00#16).2.memRead 0xFE00#16).2.kbdIn = bs ∧
    ((s.memRead 0xFE00#16).2.memRead 0xFE02#16).1 = BitVec.ofNat 16 b.toNat ∧
    (((s.memRead 0xFE00#16).2.memRead 0xFE00#16).2.memRead 0xFE02#16).1 = BitVec.ofNat 16 c.toNat

/-- A word stored over the next instruction is what the next step executes (R71). -/
def Obligations.StoredWordIsFetchedNext : Prop :=
  ∀ (s : State) (sr : RegIdx), s.run = true → s.pc ≠ 0xFE00#16 → s.pc + 1#16 ≠ 0xFE00#16 →
    decode (s.mem.read s.pc) = .st sr 0#9 →
    ∃ t, step s = .next t ∧ t.mem.read (s.pc + 1#16) = s.getReg sr ∧
      step t = exec (decode (s.getReg sr)) { t with pc := s.pc + 2#16 }

/-! ## Extension and condition codes (R13, R14) -/

/-- `sext_N` for N in 5, 6, 9, 11: the low bits, with ones above where the top bit of the field is 1; the same numeric value, in
the field's range; idempotent. `zext_16` keeps the value of a byte (R13). -/
def Obligations.ExtensionKeepsNumericValue : Prop :=
  (∀ n ∈ [5, 6, 9, 11], ∀ v : Word,
    sext n v = (if v.getLsbD (n - 1) then (v &&& ~~~(0xFFFF#16 <<< n)) ||| (0xFFFF#16 <<< n) else v &&& ~~~(0xFFFF#16 <<< n)) ∧
    (sext n v).toInt = (v.setWidth n).toInt ∧ -(2 ^ (n - 1) : Int) ≤ (sext n v).toInt ∧ (sext n v).toInt < (2 ^ (n - 1) : Int) ∧
    sext n (sext n v) = sext n v) ∧
  ∀ b : Byte, (zextByte b).toNat = b.toNat

/-- `setcc` writes ZRO for zero, NEG when bit 15 is 1, POS otherwise, exactly one of them, and nothing but COND; an instruction
that sets COND applies it to the value it wrote to its destination register (R14). -/
def Obligations.SetccGivesExactlyOneFlag : Prop :=
  (∀ (s : State) (v : Word), s.setcc v = { s with cond := codeOf v } ∧
    ((s.setcc v).cond = 0b010#3 ↔ v = 0x0000#16) ∧ ((s.setcc v).cond = 0b100#3 ↔ v.getLsbD 15 = true) ∧
    ((s.setcc v).cond = 0b001#3 ↔ v ≠ 0x0000#16 ∧ v.getLsbD 15 = false)) ∧
  ∀ (i : Instr) (s t : State) (d : RegIdx), condDest i = some d → (needsInput i = false ∨ s.kbdIn ≠ []) → exec i s = .next t →
    t.cond = codeOf (t.getReg d)

/-! ## Operate instructions (R120 to R124) -/

/-- ADD, register form (R120): the sum modulo 2^16, both sources read before DR is written. -/
def Obligations.AddRegisterForm : Prop :=
  (∀ w : Word, w &&& 0xF020#16 = 0x1000#16 → decode w = .addReg (regAt w 9) (regAt w 6) (regAt w 0)) ∧
  ∀ (dr sr1 sr2 : RegIdx) (s : State), ∃ t, exec (.addReg dr sr1 sr2) s = .next t ∧
    WritesResult dr (BitVec.ofNat 16 (((s.getReg sr1).toNat + (s.getReg sr2).toNat) % 65536)) s t ∧
    SameMemory s t ∧ t.kbdIn = s.kbdIn

/-- ADD, immediate form (R121). -/
def Obligations.AddImmediateForm : Prop :=
  (∀ w : Word, w &&& 0xF020#16 = 0x1020#16 → decode w = .addImm (regAt w 9) (regAt w 6) (w.setWidth 5)) ∧
  ∀ (dr sr1 : RegIdx) (imm : BitVec 5) (s : State), ∃ t, exec (.addImm dr sr1 imm) s = .next t ∧
    WritesResult dr (BitVec.ofInt 16 ((s.getReg sr1).toInt + imm.toInt)) s t ∧ SameMemory s t ∧ t.kbdIn = s.kbdIn

/-- AND, register form (R122). -/
def Obligations.AndRegisterForm : Prop :=
  (∀ w : Word, w &&& 0xF020#16 = 0x5000#16 → decode w = .andReg (regAt w 9) (regAt w 6) (regAt w 0)) ∧
  ∀ (dr sr1 sr2 : RegIdx) (s : State), ∃ t, exec (.andReg dr sr1 sr2) s = .next t ∧
    WritesResult dr (s.getReg sr1 &&& s.getReg sr2) s t ∧ SameMemory s t ∧ t.kbdIn = s.kbdIn

/-- AND, immediate form (R123): the immediate is sign-extended first. -/
def Obligations.AndImmediateForm : Prop :=
  (∀ w : Word, w &&& 0xF020#16 = 0x5020#16 → decode w = .andImm (regAt w 9) (regAt w 6) (w.setWidth 5)) ∧
  ∀ (dr sr1 : RegIdx) (imm : BitVec 5) (s : State), ∃ t, exec (.andImm dr sr1 imm) s = .next t ∧
    WritesResult dr (s.getReg sr1 &&& signed imm) s t ∧ SameMemory s t ∧ t.kbdIn = s.kbdIn

/-- NOT (R124): 0xFFFF less the operand. -/
def Obligations.NotComplementsEveryBit : Prop :=
  (∀ w : Word, w &&& 0xF000#16 = 0x9000#16 → decode w = .notOp (regAt w 9) (regAt w 6)) ∧
  ∀ (dr sr1 : RegIdx) (s : State), ∃ t, exec (.notOp dr sr1) s = .next t ∧
    WritesResult dr (BitVec.ofNat 16 (0xFFFF - (s.getReg sr1).toNat)) s t ∧ SameMemory s t ∧ t.kbdIn = s.kbdIn

/-! ## Control instructions (R130 to R134) -/

/-- BR (R130): taken when the mask and COND share a bit; mask 0b000 never, mask 0b111 always under a one-hot COND. Nothing but PC
changes. -/
def Obligations.BranchOnCondition : Prop :=
  (∀ w : Word, w &&& 0xF000#16 = 0x0000#16 → decode w = .br (w.extractLsb' 9 3) (w.setWidth 9)) ∧
  (∀ (nzp : BitVec 3) (off : BitVec 9) (s : State),
    (nzp &&& s.cond ≠ 0b000#3 → exec (.br nzp off) s = .next { s with pc := s.pc + signed off }) ∧
    (nzp &&& s.cond = 0b000#3 → exec (.br nzp off) s = .next s)) ∧
  ∀ (off : BitVec 9) (s : State), exec (.br 0b000#3 off) s = .next s ∧
    (condOneHot s.cond = true → exec (.br 0b111#3 off) s = .next { s with pc := s.pc + signed off })

/-- JMP (R131): PC from any register, R7 included (RET); nothing else changes, R7 is not written. -/
def Obligations.JumpThroughRegister : Prop :=
  (∀ w : Word, w &&& 0xF000#16 = 0xC000#16 → decode w = .jmp (regAt w 6)) ∧
  ∀ (base : RegIdx) (s : State), exec (.jmp base) s = .next { s with pc := s.getReg base }

/-- JSR (R133): R7 gets the incremented PC, the target is relative to it; COND and everything else as before. -/
def Obligations.CallPcRelative : Prop :=
  (∀ w : Word, w &&& 0xF800#16 = 0x4800#16 → decode w = .jsr (w.setWidth 11)) ∧
  ∀ (off : BitVec 11) (s : State), ∃ t, exec (.jsr off) s = .next t ∧
    t.getReg 7 = s.pc ∧ t.pc = s.pc + signed off ∧ SameRegsBut 7 s t ∧
    t.cond = s.cond ∧ t.run = s.run ∧ SameMemory s t ∧ t.kbdIn = s.kbdIn ∧ t.conOut = s.conOut

/-- JSRR (R134): R7 gets the incremented PC; the target is the base register, and for R7 the value just written, which is
decision D7 of the spec (log 6). -/
def Obligations.CallThroughRegister : Prop :=
  (∀ w : Word, w &&& 0xF800#16 = 0x4000#16 → decode w = .jsrr (regAt w 6)) ∧
  ∀ (base : RegIdx) (s : State), ∃ t, exec (.jsrr base) s = .next t ∧
    t.getReg 7 = s.pc ∧ (base ≠ 7 → t.pc = s.getReg base) ∧ (base = 7 → t.pc = s.pc) ∧ SameRegsBut 7 s t ∧
    t.cond = s.cond ∧ t.run = s.run ∧ SameMemory s t ∧ t.kbdIn = s.kbdIn ∧ t.conOut = s.conOut

/-! ## Loads, LEA and stores (R140 to R148) -/

/-- LD (R141): DR and COND from the word read at `pc + sext_9`; memory changes only by the poll of that read. -/
def Obligations.LoadPcRelative : Prop :=
  (∀ w : Word, w &&& 0xF000#16 = 0x2000#16 → decode w = .ld (regAt w 9) (w.setWidth 9)) ∧
  ∀ (dr : RegIdx) (off : BitVec 9) (s : State), ∃ t v u, exec (.ld dr off) s = .next t ∧
    CoreRead (s.pc + signed off) s v u ∧ WritesResult dr v s t ∧ SameMemory u t ∧ t.kbdIn = u.kbdIn

/-- LDI (R142): the pointer read, then the data read; COND from the data. -/
def Obligations.LoadIndirect : Prop :=
  (∀ w : Word, w &&& 0xF000#16 = 0xA000#16 → decode w = .ldi (regAt w 9) (w.setWidth 9)) ∧
  ∀ (dr : RegIdx) (off : BitVec 9) (s : State), ∃ t p u v x, exec (.ldi dr off) s = .next t ∧
    CoreRead (s.pc + signed off) s p u ∧ CoreRead p u v x ∧ WritesResult dr v s t ∧ SameMemory x t ∧ t.kbdIn = x.kbdIn

/-- LDR (R143): the base register is read before DR is written and is not modified otherwise. -/
def Obligations.LoadBasePlusOffset : Prop :=
  (∀ w : Word, w &&& 0xF000#16 = 0x6000#16 → decode w = .ldr (regAt w 9) (regAt w 6) (w.setWidth 6)) ∧
  ∀ (dr base : RegIdx) (off : BitVec 6) (s : State), ∃ t v u, exec (.ldr dr base off) s = .next t ∧
    CoreRead (s.getReg base + signed off) s v u ∧ WritesResult dr v s t ∧ SameMemory u t ∧ t.kbdIn = u.kbdIn

/-- LEA (R144): the address itself, with COND set from it, and no memory access. -/
def Obligations.LoadEffectiveAddress : Prop :=
  (∀ w : Word, w &&& 0xF000#16 = 0xE000#16 → decode w = .lea (regAt w 9) (w.setWidth 9)) ∧
  ∀ (dr : RegIdx) (off : BitVec 9) (s : State), ∃ t, exec (.lea dr off) s = .next t ∧
    WritesResult dr (s.pc + signed off) s t ∧ SameMemory s t ∧ t.kbdIn = s.kbdIn

/-- ST (R145): the word at `pc + sext_9` becomes SR's value; every other word, and everything else, is as before. -/
def Obligations.StorePcRelative : Prop :=
  (∀ w : Word, w &&& 0xF000#16 = 0x3000#16 → decode w = .st (regAt w 9) (w.setWidth 9)) ∧
  ∀ (sr : RegIdx) (off : BitVec 9) (s : State), ∃ t, exec (.st sr off) s = .next t ∧
    (∀ a, t.mem.read a = if a = s.pc + signed off then s.getReg sr else s.mem.read a) ∧
    SameOutsideMemory s t ∧ t.kbdIn = s.kbdIn

/-- STI (R146): the pointer is read first, with its poll, then the word it names becomes SR's value. -/
def Obligations.StoreIndirect : Prop :=
  (∀ w : Word, w &&& 0xF000#16 = 0xB000#16 → decode w = .sti (regAt w 9) (w.setWidth 9)) ∧
  ∀ (sr : RegIdx) (off : BitVec 9) (s : State), ∃ t p u, exec (.sti sr off) s = .next t ∧
    CoreRead (s.pc + signed off) s p u ∧ (∀ a, t.mem.read a = if a = p then s.getReg sr else u.mem.read a) ∧
    SameOutsideMemory s t ∧ t.kbdIn = u.kbdIn

/-- STR (R147): the word at base plus offset becomes SR's value; SR may be the base; the base is not modified. -/
def Obligations.StoreBasePlusOffset : Prop :=
  (∀ w : Word, w &&& 0xF000#16 = 0x7000#16 → decode w = .str (regAt w 9) (regAt w 6) (w.setWidth 6)) ∧
  ∀ (sr base : RegIdx) (off : BitVec 6) (s : State), ∃ t, exec (.str sr base off) s = .next t ∧
    (∀ a, t.mem.read a = if a = s.getReg base + signed off then s.getReg sr else s.mem.read a) ∧
    SameOutsideMemory s t ∧ t.kbdIn = s.kbdIn

/-! ## TRAP and the opcodes without semantics (R160 to R167, R180, R181) -/

/-- GETC (R161): the first pending byte, zero-extended (decision D13, log 12), into R0, COND ZRO or POS; R7 linked; no echo, no
memory access. -/
def Obligations.GetcTakesOneByte : Prop :=
  (∀ w : Word, w &&& 0xF0FF#16 = 0xF020#16 → decode w = .getc) ∧
  ∀ (s : State) (b : Byte) (bs : List Byte), s.kbdIn = b :: bs → ∃ t, exec .getc s = .next t ∧
    t.getReg 0 = BitVec.ofNat 16 b.toNat ∧ t.getReg 7 = s.pc ∧ (∀ r, r ≠ 0 → r ≠ 7 → t.getReg r = s.getReg r) ∧
    t.cond = (if b.toNat = 0 then 0b010#3 else 0b001#3) ∧ t.pc = s.pc ∧ t.run = s.run ∧ t.kbdIn = bs ∧
    SameMemory s t ∧ t.conOut = s.conOut

/-- OUT (R162): the low byte of R0 is appended, even 0x00; R0 and COND are not changed; R7 is linked. -/
def Obligations.OutWritesLowByte : Prop :=
  (∀ w : Word, w &&& 0xF0FF#16 = 0xF021#16 → decode w = .out) ∧
  ∀ s : State, ∃ t, exec .out s = .next t ∧ Links s t ∧ t.run = s.run ∧ SameMemory s t ∧ t.kbdIn = s.kbdIn ∧
    t.conOut = s.conOut ++ [BitVec.ofNat 8 ((s.getReg 0).toNat % 256)]

/-- PUTS (R163) completes from every state and does what its loop says, low byte of each word; R7 is linked, and beside the
console only the keyboard words can change. Walk wrap and completion: log 15, 18. -/
def Obligations.PutsPrintsLowBytes : Prop :=
  (∀ w : Word, w &&& 0xF0FF#16 = 0xF022#16 → decode w = .puts) ∧
  ∀ s : State, ∃ t, exec .puts s = .next t ∧ PrintWalk putsOut (s.getReg 0) (s.setReg 7 s.pc) t ∧
    Links s t ∧ t.run = s.run ∧ ∀ a, a ≠ 0xFE00#16 → a ≠ 0xFE02#16 → t.mem.read a = s.mem.read a

/-- IN (R164): prompt, then the byte echoed, then as GETC (decisions D13, D15, log 12, 13). -/
def Obligations.InPromptsAndEchoes : Prop :=
  (∀ w : Word, w &&& 0xF0FF#16 = 0xF023#16 → decode w = .inOp) ∧
  ∀ (s : State) (b : Byte) (bs : List Byte), s.kbdIn = b :: bs → ∃ t, exec .inOp s = .next t ∧
    t.getReg 0 = BitVec.ofNat 16 b.toNat ∧ t.getReg 7 = s.pc ∧ (∀ r, r ≠ 0 → r ≠ 7 → t.getReg r = s.getReg r) ∧
    t.cond = (if b.toNat = 0 then 0b010#3 else 0b001#3) ∧ t.pc = s.pc ∧ t.run = s.run ∧ t.kbdIn = bs ∧
    SameMemory s t ∧ t.conOut = s.conOut ++ promptBytes ++ [b]

/-- PUTSP (R165) completes from every state and does what its loop says: low byte always, then the high byte if non-zero. Walk
wrap and completion: log 15, 18. -/
def Obligations.PutspPrintsPackedBytes : Prop :=
  (∀ w : Word, w &&& 0xF0FF#16 = 0xF024#16 → decode w = .putsp) ∧
  ∀ s : State, ∃ t, exec .putsp s = .next t ∧ PrintWalk putspOut (s.getReg 0) (s.setReg 7 s.pc) t ∧
    Links s t ∧ t.run = s.run ∧ ∀ a, a ≠ 0xFE00#16 → a ≠ 0xFE02#16 → t.mem.read a = s.mem.read a

/-- A string of non-zero words ended by a zero word, none of them at 0xFE00, is printed whole, and nothing but R7 and CON_OUT
changes (R163, R165). -/
def Obligations.TerminatedStringIsPrinted : Prop :=
  ∀ (s : State) (ws : List Word),
    (∀ (k : Nat) (h : k < ws.length), s.mem.read (s.getReg 0 + BitVec.ofNat 16 k) = ws[k] ∧ ws[k] ≠ 0x0000#16 ∧
      s.getReg 0 + BitVec.ofNat 16 k ≠ 0xFE00#16) →
    s.mem.read (s.getReg 0 + BitVec.ofNat 16 ws.length) = 0x0000#16 →
    s.getReg 0 + BitVec.ofNat 16 ws.length ≠ 0xFE00#16 →
    exec .puts s = .next { s.setReg 7 s.pc with conOut := s.conOut ++ ws.flatMap putsOut } ∧
    exec .putsp s = .next { s.setReg 7 s.pc with conOut := s.conOut ++ ws.flatMap putspOut }

/-- HALT (R166): R7 linked, `HALT` output, RUN cleared, everything else as before; nothing is fetched after it (log 17). -/
def Obligations.HaltStopsTheMachine : Prop :=
  (∀ w : Word, w &&& 0xF0FF#16 = 0xF025#16 → decode w = .halt) ∧
  ∀ s : State, ∃ t, exec .halt s = .next t ∧ HaltsAsTrap s t ∧ step t = .next t

/-- A TRAP with any other vector behaves exactly as HALT, R7 and the message included (R167). -/
def Obligations.UnknownVectorBehavesAsHalt : Prop :=
  (∀ w : Word, w &&& 0xF000#16 = 0xF000#16 → (w.toNat % 256 < 0x20 ∨ 0x25 < w.toNat % 256) →
    decode w = .trapUnknown (BitVec.ofNat 8 (w.toNat % 256))) ∧
  ∀ (v : BitVec 8) (s : State), exec (.trapUnknown v) s = exec .halt s ∧
    ∃ t, exec (.trapUnknown v) s = .next t ∧ HaltsAsTrap s t

/-- RTI and RES, whatever their low bits, halt as TRAP HALT (R180 to R182). That R7 is written is decision D8 of the spec
(log 7). -/
def Obligations.InvalidOpcodesHalt : Prop :=
  (∀ w : Word, (w &&& 0xF000#16 = 0x8000#16 → decode w = .rti) ∧ (w &&& 0xF000#16 = 0xD000#16 → decode w = .res)) ∧
  ∀ s : State, (∃ t, exec .rti s = .next t ∧ HaltsAsTrap s t) ∧ ∃ t, exec .res s = .next t ∧ HaltsAsTrap s t

/-! ## Whole-machine rules, over every instruction -/

/-- COND is written by exactly ADD, AND, NOT, LD, LDI, LDR, LEA, GETC and IN, and then from the value in the destination register
(R30). GETC and IN without input wait and write nothing (R116). -/
def Obligations.CondWrittenOnlyFromDestination : Prop :=
  ∀ (i : Instr) (s t : State), exec i s = .next t →
    (condDest i = none → t.cond = s.cond) ∧
    ∀ d, condDest i = some d →
      ((needsInput i = false ∨ s.kbdIn ≠ []) → t.cond = codeOf (t.getReg d)) ∧
      ((needsInput i = true ∧ s.kbdIn = []) → t.cond = s.cond)

/-- COND is read by BR alone: any other instruction does the same under every COND, and its COND is either the one it computes or
the one it was given (R30). -/
def Obligations.CondReadOnlyByBranch : Prop :=
  ∀ (i : Instr) (s t : State) (c : BitVec 3), (∀ nzp off, i ≠ .br nzp off) → exec i s = .next t →
    ∃ c', exec i { s with cond := c } = .next { t with cond := c' } ∧ (c' = t.cond ∨ (t.cond = s.cond ∧ c' = c))

/-- Where every instruction leaves PC (R27); GETC and IN without input wait and take the increment back (R116, log 16). -/
def Obligations.PcAfterEachInstruction : Prop :=
  ∀ (i : Instr) (s t : State), exec i s = .next t →
    ((needsInput i = false ∨ s.kbdIn ≠ []) → t.pc = pcAfter i s) ∧
    ((needsInput i = true ∧ s.kbdIn = []) → t.pc + 1#16 = s.pc)

/-- Memory is written only by ST, STI and STR, at the address they name, and by polls, at 0xFE00 and 0xFE02; an instruction that
neither stores nor reads memory leaves all of it (R63, R168, C3). -/
def Obligations.MemoryWrittenOnlyByStoresAndPolls : Prop :=
  ∀ (i : Instr) (s t : State), exec i s = .next t →
    (∀ a, storesTo i s ≠ some a → a ≠ 0xFE00#16 → a ≠ 0xFE02#16 → t.mem.read a = s.mem.read a) ∧
    (readsMemory i = false → ∀ a, storesTo i s ≠ some a → t.mem.read a = s.mem.read a)

/-- KBD_IN loses bytes from its front only (R37). That the input is a queue taken from its front is decision D12 (log 11). -/
def Obligations.InputIsTakenFromTheFront : Prop :=
  ∀ s t : State, step s = .next t → t.kbdIn <:+ s.kbdIn

/-- CON_OUT only grows, and no step depends on what it holds (R37, R38; decision D12, log 11). -/
def Obligations.OutputGrowsAndIsNeverRead : Prop :=
  ∀ (s t : State) (out : List Byte), step s = .next t →
    ∃ added, t.conOut = s.conOut ++ added ∧ step { s with conOut := out } = .next { t with conOut := out ++ added }
end

