-- ==== Sys2Proof/Laws/Decode.lean ====
section
/-! SUPPORT. From the masks of the opcode table to the fields the decoder reads, and from the opcode to the arm of the decoder
(R87, R89). -/

namespace Sys2Proof

/-- A field that a mask covers whole is fixed by the masked word. -/
theorem extract_of_mask {w m c : Word} (i n : Nat) (h : w &&& m = c) (hm : m.extractLsb' i n = BitVec.allOnes n) :
    w.extractLsb' i n = c.extractLsb' i n := by
  rw [← h, BitVec.extractLsb'_and, hm, BitVec.and_allOnes]

/-- A bit that a mask holds is fixed by the masked word. -/
theorem bit_of_mask {w m c : Word} (i : Nat) (h : w &&& m = c) (hm : m.getLsbD i = true) :
    w.getLsbD i = c.getLsbD i := by
  rw [← h, BitVec.getLsbD_and, hm, Bool.and_true]

/-- A field in the low bits of a word is the word cut to the field's width (R84). -/
theorem low_field (n : Nat) (w : Word) : w.extractLsb' 0 n = w.setWidth n := by
  apply BitVec.eq_of_getLsbD_eq
  intro i hi
  simp [hi]

@[simp] theorem regOfBits_bitsOfReg (r : RegIdx) : regOfBits (bitsOfReg r) = r := rfl

@[simp] theorem bitsOfReg_regOfBits (b : BitVec 3) : bitsOfReg (regOfBits b) = b := rfl

/-- The sixteen values of `ir[15:12]` and their opcodes (R87). -/
theorem ofBits_table :
    Opcode.ofBits 0x0#4 = .br ∧ Opcode.ofBits 0x1#4 = .add ∧ Opcode.ofBits 0x2#4 = .ld ∧ Opcode.ofBits 0x3#4 = .st ∧
    Opcode.ofBits 0x4#4 = .jsr ∧ Opcode.ofBits 0x5#4 = .and ∧ Opcode.ofBits 0x6#4 = .ldr ∧ Opcode.ofBits 0x7#4 = .str ∧
    Opcode.ofBits 0x8#4 = .rti ∧ Opcode.ofBits 0x9#4 = .not ∧ Opcode.ofBits 0xA#4 = .ldi ∧ Opcode.ofBits 0xB#4 = .sti ∧
    Opcode.ofBits 0xC#4 = .jmp ∧ Opcode.ofBits 0xD#4 = .res ∧ Opcode.ofBits 0xE#4 = .lea ∧ Opcode.ofBits 0xF#4 = .trap := by
  decide

/-- The decoder on a word whose opcode is known. -/
theorem decode_of_opcode {w : Word} {o : Opcode} (h : Opcode.ofBits (fieldOpcode w) = o) : decode w = decodeAs o w := by
  rw [decode, h]

/-- The opcode of a word from the table's mask and match, when the mask covers `ir[15:12]`. -/
theorem opcode_of_mask {w m c : Word} {o : Opcode} (h : w &&& m = c) (hm : m.extractLsb' 12 4 = BitVec.allOnes 4)
    (ho : Opcode.ofBits (c.extractLsb' 12 4) = o) : Opcode.ofBits (fieldOpcode w) = o := by
  rw [fieldOpcode, extract_of_mask 12 4 h hm, ho]

/-- Placed bits outside a mask do not show through it. -/
theorem place_and_mask {n : Nat} (lo : Nat) (f : BitVec n) {m : Word} (h : ∀ i < n, m.getLsbD (lo + i) = false) :
    place lo f &&& m = 0#16 := by
  apply BitVec.eq_of_getLsbD_eq
  intro i hi
  simp only [place, BitVec.getLsbD_and, BitVec.getLsbD_shiftLeft, BitVec.getLsbD_setWidth, BitVec.getLsbD_zero]
  by_cases hlo : i < lo
  · simp [hlo]
  · by_cases hn : i - lo < n
    · have := h (i - lo) hn
      rw [Nat.add_sub_cancel' (by omega)] at this
      simp [this]
    · simp [BitVec.getLsbD_of_ge f (i - lo) (by omega)]

/-- A word seen through a mask, with bits added that the mask does not hold. -/
theorem or_and_mask {c x m r : Word} (hc : c &&& m = r) (hx : x &&& m = 0#16) : (c ||| x) &&& m = r := by
  apply BitVec.eq_of_getLsbD_eq
  intro i _
  have h := congrArg (fun w : Word => w.getLsbD i) hx
  simp only [BitVec.getLsbD_and, BitVec.getLsbD_zero, BitVec.getLsbD_or] at h ⊢
  rw [← hc, Bool.and_or_distrib_right, h, Bool.or_false, BitVec.getLsbD_and]

/-- The decoder never answers an ill-formed term for a trap vector (R89). -/
theorem decodeTrap_wellFormed (v : BitVec 8) : (decodeTrap v).wellFormed = true := by
  simp only [decodeTrap]
  repeat' split
  all_goals simp_all [Instr.wellFormed, knownTrapVectors]

end Sys2Proof
end

