-- ==== Sys2Proof/Laws/Memory.lean ====
section
/-! SUPPORT. Memory as data: what a read gives after a write (R56, R67), and that every operation keeps the canonical form. -/

namespace Sys2Proof.Machine

@[simp] theorem read_nil (a : Addr) : Memory.read [] a = 0#16 := rfl

theorem read_cons (c : Cell) (m : Memory) (a : Addr) :
    Memory.read (c :: m) a = if c.1 = a.toNat then c.2 else Memory.read m a := rfl

theorem read_erase (m : Memory) (k : Nat) (b : Addr) :
    (Memory.erase m k).read b = if b.toNat = k then 0#16 else m.read b := by
  induction m with
  | nil => simp [Memory.erase]
  | cons c m ih =>
    by_cases hc : c.1 = k
    · by_cases hb : b.toNat = k
      · simp [Memory.erase, hc, hb, ih]
      · have : ¬ k = b.toNat := fun e => hb e.symm
        simp [Memory.erase, read_cons, hc, hb, ih, this]
    · by_cases hb : b.toNat = k
      · have : ¬ c.1 = b.toNat := fun e => hc (e.trans hb)
        simp [Memory.erase, read_cons, hc, ih, hb]
      · simp [Memory.erase, read_cons, hc, ih, hb]

theorem read_insert (m : Memory) (k : Nat) (v : Word) (b : Addr) (hk : ∀ c ∈ m, c.1 ≠ k) :
    (Memory.insert m k v).read b = if b.toNat = k then v else m.read b := by
  induction m with
  | nil => simp [Memory.insert, read_cons, eq_comm]
  | cons c m ih =>
    have hc : c.1 ≠ k := hk c (by simp)
    have ih := ih fun d hd => hk d (by simp [hd])
    by_cases hlt : k < c.1
    · simp [Memory.insert, hlt, read_cons, eq_comm]
    · simp only [Memory.insert, hlt, if_false, read_cons, ih]
      by_cases hb : b.toNat = k
      · simp [hb, hc]
      · simp [hb]

theorem mem_erase {m : Memory} {k : Nat} {c : Cell} (h : c ∈ Memory.erase m k) : c ∈ m ∧ c.1 ≠ k := by
  induction m with
  | nil => simp [Memory.erase] at h
  | cons d m ih =>
    by_cases hd : d.1 = k
    · simp only [Memory.erase, hd, if_true] at h
      exact ⟨by simp [(ih h).1], (ih h).2⟩
    · simp only [Memory.erase, hd, if_false, List.mem_cons] at h
      rcases h with rfl | h
      · exact ⟨by simp, hd⟩
      · exact ⟨by simp [(ih h).1], (ih h).2⟩

theorem mem_insert {m : Memory} {k : Nat} {v : Word} {c : Cell} (h : c ∈ Memory.insert m k v) : c = (k, v) ∨ c ∈ m := by
  induction m with
  | nil => simpa [Memory.insert] using h
  | cons d m ih =>
    by_cases hlt : k < d.1
    · simp only [Memory.insert, hlt, if_true, List.mem_cons] at h
      simpa using h
    · simp only [Memory.insert, hlt, if_false, List.mem_cons] at h
      rcases h with rfl | h
      · simp
      · rcases ih h with h | h <;> simp [h]

/-- A write is seen at its own address and nowhere else (R56, R67). -/
theorem read_write (m : Memory) (a b : Addr) (v : Word) :
    (m.write a v).read b = if b = a then v else m.read b := by
  have key : (b.toNat = a.toNat) ↔ b = a := BitVec.toNat_inj
  by_cases hv : v = unlistedWord
  · simp only [Memory.write, hv, if_true, read_erase, key]; rfl
  · simp only [Memory.write, hv, if_false]
    rw [read_insert _ _ _ _ fun c hc => (mem_erase hc).2]
    by_cases hb : b = a
    · simp [hb]
    · simp [key, hb, read_erase]

@[simp] theorem read_write_self (m : Memory) (a : Addr) (v : Word) : (m.write a v).read a = v := by
  simp [read_write]

@[simp] theorem read_write_of_ne (m : Memory) {a b : Addr} (h : b ≠ a) (v : Word) : (m.write a v).read b = m.read b := by
  simp [read_write, h]

/-! ## The canonical form -/

theorem wf_iff {m : Memory} : m.wf = true ↔
    m.Pairwise (fun c d => c.1 < d.1) ∧ ∀ c ∈ m, c.1 < 65536 ∧ c.2 ≠ 0#16 := by
  simp [Memory.wf, unlistedWord]

@[simp] theorem wf_nil : Memory.wf [] = true := rfl

theorem wf_erase {m : Memory} (k : Nat) (h : m.wf = true) : (Memory.erase m k).wf = true := by
  rw [wf_iff] at *
  refine ⟨?_, fun c hc => h.2 c (mem_erase hc).1⟩
  have h1 := h.1
  clear h
  induction m with
  | nil => simp [Memory.erase]
  | cons c m ih =>
    rw [List.pairwise_cons] at h1
    by_cases hc : c.1 = k
    · simpa [Memory.erase, hc] using ih h1.2
    · simp only [Memory.erase, hc, if_false, List.pairwise_cons]
      exact ⟨fun d hd => h1.1 d (mem_erase hd).1, ih h1.2⟩

theorem wf_insert {m : Memory} {k : Nat} {v : Word} (hk : k < 65536) (hv : v ≠ 0#16) (hm : ∀ c ∈ m, c.1 ≠ k)
    (h : m.wf = true) : (Memory.insert m k v).wf = true := by
  rw [wf_iff] at *
  refine ⟨?_, fun c hc => ?_⟩
  · have h1 := h.1
    clear h
    induction m with
    | nil => simp [Memory.insert]
    | cons c m ih =>
      have hc : c.1 ≠ k := hm c (by simp)
      have ih := ih (fun d hd => hm d (by simp [hd]))
      rw [List.pairwise_cons] at h1
      by_cases hlt : k < c.1
      · simp only [Memory.insert, hlt, if_true, List.pairwise_cons, List.mem_cons]
        refine ⟨?_, h1.1, h1.2⟩
        rintro d (rfl | hd)
        · exact hlt
        · exact hlt.trans (h1.1 d hd)
      · simp only [Memory.insert, hlt, if_false, List.pairwise_cons]
        refine ⟨fun d hd => ?_, ih h1.2⟩
        rcases mem_insert hd with rfl | hd
        · simp only; omega
        · exact h1.1 d hd
  · rcases mem_insert hc with rfl | hc
    · exact ⟨hk, hv⟩
    · exact h.2 c hc

/-- Every write keeps the canonical form. -/
theorem wf_write {m : Memory} (a : Addr) (v : Word) (h : m.wf = true) : (m.write a v).wf = true := by
  by_cases hv : v = unlistedWord
  · simpa [Memory.write, hv] using wf_erase a.toNat h
  · simp only [Memory.write, hv, if_false]
    exact wf_insert a.isLt hv (fun c hc => (mem_erase hc).2) (wf_erase _ h)

end Sys2Proof.Machine
end

