-- ==== Sys2Proof/Laws/State.lean ====
section
/-! SUPPORT. What each single update of State leaves in each field, and reading a register after each: true by unfolding the
update once, so that no later proof unfolds one. -/

namespace Sys2Proof.Machine

variable (s : State)

/-! ### setReg -/

@[simp] theorem setReg_regs (r : RegIdx) (v : Word) : (s.setReg r v).regs = s.regs.set r.val v r.isLt := rfl
@[simp] theorem setReg_pc (r : RegIdx) (v : Word) : (s.setReg r v).pc = s.pc := rfl
@[simp] theorem setReg_cond (r : RegIdx) (v : Word) : (s.setReg r v).cond = s.cond := rfl
@[simp] theorem setReg_run (r : RegIdx) (v : Word) : (s.setReg r v).run = s.run := rfl
@[simp] theorem setReg_mem (r : RegIdx) (v : Word) : (s.setReg r v).mem = s.mem := rfl
@[simp] theorem setReg_kbdIn (r : RegIdx) (v : Word) : (s.setReg r v).kbdIn = s.kbdIn := rfl
@[simp] theorem setReg_conOut (r : RegIdx) (v : Word) : (s.setReg r v).conOut = s.conOut := rfl

/-! ### setPc -/

@[simp] theorem setPc_regs (v : Word) : (s.setPc v).regs = s.regs := rfl
@[simp] theorem setPc_pc (v : Word) : (s.setPc v).pc = v := rfl
@[simp] theorem setPc_cond (v : Word) : (s.setPc v).cond = s.cond := rfl
@[simp] theorem setPc_run (v : Word) : (s.setPc v).run = s.run := rfl
@[simp] theorem setPc_mem (v : Word) : (s.setPc v).mem = s.mem := rfl
@[simp] theorem setPc_kbdIn (v : Word) : (s.setPc v).kbdIn = s.kbdIn := rfl
@[simp] theorem setPc_conOut (v : Word) : (s.setPc v).conOut = s.conOut := rfl
@[simp] theorem setPc_getReg (v : Word) (q : RegIdx) : (s.setPc v).getReg q = s.getReg q := rfl

/-! ### setCond -/

@[simp] theorem setCond_regs (c : BitVec 3) : (s.setCond c).regs = s.regs := rfl
@[simp] theorem setCond_pc (c : BitVec 3) : (s.setCond c).pc = s.pc := rfl
@[simp] theorem setCond_cond (c : BitVec 3) : (s.setCond c).cond = c := rfl
@[simp] theorem setCond_run (c : BitVec 3) : (s.setCond c).run = s.run := rfl
@[simp] theorem setCond_mem (c : BitVec 3) : (s.setCond c).mem = s.mem := rfl
@[simp] theorem setCond_kbdIn (c : BitVec 3) : (s.setCond c).kbdIn = s.kbdIn := rfl
@[simp] theorem setCond_conOut (c : BitVec 3) : (s.setCond c).conOut = s.conOut := rfl
@[simp] theorem setCond_getReg (c : BitVec 3) (q : RegIdx) : (s.setCond c).getReg q = s.getReg q := rfl

/-! ### setRun -/

@[simp] theorem setRun_regs (b : Bool) : (s.setRun b).regs = s.regs := rfl
@[simp] theorem setRun_pc (b : Bool) : (s.setRun b).pc = s.pc := rfl
@[simp] theorem setRun_cond (b : Bool) : (s.setRun b).cond = s.cond := rfl
@[simp] theorem setRun_run (b : Bool) : (s.setRun b).run = b := rfl
@[simp] theorem setRun_mem (b : Bool) : (s.setRun b).mem = s.mem := rfl
@[simp] theorem setRun_kbdIn (b : Bool) : (s.setRun b).kbdIn = s.kbdIn := rfl
@[simp] theorem setRun_conOut (b : Bool) : (s.setRun b).conOut = s.conOut := rfl
@[simp] theorem setRun_getReg (b : Bool) (q : RegIdx) : (s.setRun b).getReg q = s.getReg q := rfl

/-! ### setKbdIn -/

@[simp] theorem setKbdIn_regs (bs : List Byte) : (s.setKbdIn bs).regs = s.regs := rfl
@[simp] theorem setKbdIn_pc (bs : List Byte) : (s.setKbdIn bs).pc = s.pc := rfl
@[simp] theorem setKbdIn_cond (bs : List Byte) : (s.setKbdIn bs).cond = s.cond := rfl
@[simp] theorem setKbdIn_run (bs : List Byte) : (s.setKbdIn bs).run = s.run := rfl
@[simp] theorem setKbdIn_mem (bs : List Byte) : (s.setKbdIn bs).mem = s.mem := rfl
@[simp] theorem setKbdIn_kbdIn (bs : List Byte) : (s.setKbdIn bs).kbdIn = bs := rfl
@[simp] theorem setKbdIn_conOut (bs : List Byte) : (s.setKbdIn bs).conOut = s.conOut := rfl
@[simp] theorem setKbdIn_getReg (bs : List Byte) (q : RegIdx) : (s.setKbdIn bs).getReg q = s.getReg q := rfl

/-! ### conPut -/

@[simp] theorem conPut_regs (bs : List Byte) : (s.conPut bs).regs = s.regs := rfl
@[simp] theorem conPut_pc (bs : List Byte) : (s.conPut bs).pc = s.pc := rfl
@[simp] theorem conPut_cond (bs : List Byte) : (s.conPut bs).cond = s.cond := rfl
@[simp] theorem conPut_run (bs : List Byte) : (s.conPut bs).run = s.run := rfl
@[simp] theorem conPut_mem (bs : List Byte) : (s.conPut bs).mem = s.mem := rfl
@[simp] theorem conPut_kbdIn (bs : List Byte) : (s.conPut bs).kbdIn = s.kbdIn := rfl
@[simp] theorem conPut_conOut (bs : List Byte) : (s.conPut bs).conOut = s.conOut ++ bs := rfl
@[simp] theorem conPut_getReg (bs : List Byte) (q : RegIdx) : (s.conPut bs).getReg q = s.getReg q := rfl

/-! ### memWrite -/

@[simp] theorem memWrite_regs (a : Addr) (v : Word) : (s.memWrite a v).regs = s.regs := rfl
@[simp] theorem memWrite_pc (a : Addr) (v : Word) : (s.memWrite a v).pc = s.pc := rfl
@[simp] theorem memWrite_cond (a : Addr) (v : Word) : (s.memWrite a v).cond = s.cond := rfl
@[simp] theorem memWrite_run (a : Addr) (v : Word) : (s.memWrite a v).run = s.run := rfl
@[simp] theorem memWrite_mem (a : Addr) (v : Word) : (s.memWrite a v).mem = s.mem.write a v := rfl
@[simp] theorem memWrite_kbdIn (a : Addr) (v : Word) : (s.memWrite a v).kbdIn = s.kbdIn := rfl
@[simp] theorem memWrite_conOut (a : Addr) (v : Word) : (s.memWrite a v).conOut = s.conOut := rfl
@[simp] theorem memWrite_getReg (a : Addr) (v : Word) (q : RegIdx) : (s.memWrite a v).getReg q = s.getReg q := rfl

/-! ### Registers (R21: each of the eight holds what was last written to it) -/

@[simp] theorem getReg_setReg_self (r : RegIdx) (v : Word) : (s.setReg r v).getReg r = v := by
  simp [State.getReg, State.setReg, Vector.get_eq_getElem]

@[simp] theorem getReg_setReg_of_ne {r q : RegIdx} (h : q ≠ r) (v : Word) : (s.setReg r v).getReg q = s.getReg q := by
  have h' : r.val ≠ q.val := fun e => h (Fin.ext e.symm)
  simp [State.getReg, State.setReg, Vector.get_eq_getElem, Vector.getElem_set_ne _ _ h']

theorem getReg_setReg (r q : RegIdx) (v : Word) : (s.setReg r v).getReg q = if q = r then v else s.getReg q := by
  by_cases h : q = r
  · subst h; simp
  · simp [h]

/-! ### setcc and setRegCC (R14) -/

@[simp] theorem setcc_regs (w : Word) : (s.setcc w).regs = s.regs := rfl
@[simp] theorem setcc_pc (w : Word) : (s.setcc w).pc = s.pc := rfl
@[simp] theorem setcc_cond (w : Word) : (s.setcc w).cond = condOf w := rfl
@[simp] theorem setcc_run (w : Word) : (s.setcc w).run = s.run := rfl
@[simp] theorem setcc_mem (w : Word) : (s.setcc w).mem = s.mem := rfl
@[simp] theorem setcc_kbdIn (w : Word) : (s.setcc w).kbdIn = s.kbdIn := rfl
@[simp] theorem setcc_conOut (w : Word) : (s.setcc w).conOut = s.conOut := rfl
@[simp] theorem setcc_getReg (w : Word) (q : RegIdx) : (s.setcc w).getReg q = s.getReg q := rfl

@[simp] theorem setRegCC_regs (r : RegIdx) (w : Word) : (s.setRegCC r w).regs = s.regs.set r.val w r.isLt := rfl
@[simp] theorem setRegCC_pc (r : RegIdx) (w : Word) : (s.setRegCC r w).pc = s.pc := rfl
@[simp] theorem setRegCC_cond (r : RegIdx) (w : Word) : (s.setRegCC r w).cond = condOf w := rfl
@[simp] theorem setRegCC_run (r : RegIdx) (w : Word) : (s.setRegCC r w).run = s.run := rfl
@[simp] theorem setRegCC_mem (r : RegIdx) (w : Word) : (s.setRegCC r w).mem = s.mem := rfl
@[simp] theorem setRegCC_kbdIn (r : RegIdx) (w : Word) : (s.setRegCC r w).kbdIn = s.kbdIn := rfl
@[simp] theorem setRegCC_conOut (r : RegIdx) (w : Word) : (s.setRegCC r w).conOut = s.conOut := rfl

@[simp] theorem setRegCC_getReg_self (r : RegIdx) (w : Word) : (s.setRegCC r w).getReg r = w :=
  getReg_setReg_self s r w

@[simp] theorem setRegCC_getReg_of_ne {r q : RegIdx} (h : q ≠ r) (w : Word) : (s.setRegCC r w).getReg q = s.getReg q :=
  getReg_setReg_of_ne s h w

/-! ### Linking, traps, halting, waiting (R16, R160, R180, R116) -/

@[simp] theorem link_regs : s.link.regs = s.regs.set (7 : RegIdx).val s.pc (7 : RegIdx).isLt := rfl
@[simp] theorem link_pc : s.link.pc = s.pc := rfl
@[simp] theorem link_cond : s.link.cond = s.cond := rfl
@[simp] theorem link_run : s.link.run = s.run := rfl
@[simp] theorem link_mem : s.link.mem = s.mem := rfl
@[simp] theorem link_kbdIn : s.link.kbdIn = s.kbdIn := rfl
@[simp] theorem link_conOut : s.link.conOut = s.conOut := rfl
@[simp] theorem link_getReg_seven : s.link.getReg 7 = s.pc := getReg_setReg_self s 7 s.pc
@[simp] theorem link_getReg_of_ne {q : RegIdx} (h : q ≠ 7) : s.link.getReg q = s.getReg q :=
  getReg_setReg_of_ne s h s.pc

@[simp] theorem trapEntry_regs : s.trapEntry.regs = s.regs.set (7 : RegIdx).val s.pc (7 : RegIdx).isLt := rfl
@[simp] theorem trapEntry_pc : s.trapEntry.pc = s.pc := rfl
@[simp] theorem trapEntry_cond : s.trapEntry.cond = s.cond := rfl
@[simp] theorem trapEntry_run : s.trapEntry.run = s.run := rfl
@[simp] theorem trapEntry_mem : s.trapEntry.mem = s.mem := rfl
@[simp] theorem trapEntry_kbdIn : s.trapEntry.kbdIn = s.kbdIn := rfl
@[simp] theorem trapEntry_conOut : s.trapEntry.conOut = s.conOut := rfl
@[simp] theorem trapEntry_getReg_seven : s.trapEntry.getReg 7 = s.pc := getReg_setReg_self s 7 s.pc
@[simp] theorem trapEntry_getReg_of_ne {q : RegIdx} (h : q ≠ 7) : s.trapEntry.getReg q = s.getReg q :=
  getReg_setReg_of_ne s h s.pc

@[simp] theorem haltSeq_regs : s.haltSeq.regs = s.regs := rfl
@[simp] theorem haltSeq_pc : s.haltSeq.pc = s.pc := rfl
@[simp] theorem haltSeq_cond : s.haltSeq.cond = s.cond := rfl
@[simp] theorem haltSeq_run : s.haltSeq.run = false := rfl
@[simp] theorem haltSeq_mem : s.haltSeq.mem = s.mem := rfl
@[simp] theorem haltSeq_kbdIn : s.haltSeq.kbdIn = s.kbdIn := rfl
@[simp] theorem haltSeq_conOut : s.haltSeq.conOut = s.conOut ++ haltMessage := rfl
@[simp] theorem haltSeq_getReg (q : RegIdx) : s.haltSeq.getReg q = s.getReg q := rfl

/-- With the spec's value of INVALID_OPCODE_LINKS_R7 the fallback is the whole of TRAP HALT (D8). -/
@[simp] theorem invalidOpcode_eq : s.invalidOpcode = s.trapEntry.haltSeq := rfl

@[simp] theorem awaitInput_regs : s.awaitInput.regs = s.regs := rfl
@[simp] theorem awaitInput_pc : s.awaitInput.pc = s.pc - 1#16 := rfl
@[simp] theorem awaitInput_cond : s.awaitInput.cond = s.cond := rfl
@[simp] theorem awaitInput_run : s.awaitInput.run = s.run := rfl
@[simp] theorem awaitInput_mem : s.awaitInput.mem = s.mem := rfl
@[simp] theorem awaitInput_kbdIn : s.awaitInput.kbdIn = s.kbdIn := rfl
@[simp] theorem awaitInput_conOut : s.awaitInput.conOut = s.conOut := rfl
@[simp] theorem awaitInput_getReg (q : RegIdx) : s.awaitInput.getReg q = s.getReg q := rfl

/-- Taking back the increment of a fetch that changed nothing else gives the state before it (R116). -/
theorem awaitInput_setPc_succ (p : Word) : (s.setPc (p + 1#16)).awaitInput = s.setPc p := by
  simp [State.awaitInput, State.setPc]

@[simp] theorem setPc_self : s.setPc s.pc = s := rfl

/-- Two states with equal fields are equal; registers are compared one by one. -/
theorem state_ext {s t : State} (hr : ∀ q, s.getReg q = t.getReg q) (hp : s.pc = t.pc) (hc : s.cond = t.cond)
    (hn : s.run = t.run) (hm : s.mem = t.mem) (hk : s.kbdIn = t.kbdIn) (ho : s.conOut = t.conOut) : s = t := by
  cases s; cases t
  simp only [State.mk.injEq]
  exact ⟨Vector.ext fun i hi => by simpa [State.getReg, Vector.get_eq_getElem] using hr ⟨i, hi⟩, hp, hc, hn, hm, hk, ho⟩

end Sys2Proof.Machine
end

