-- ==== Sys2Proof/Laws/Ops.lean ====
section
/-! SUPPORT. One lemma for each shared operation that says all it can do: the poll (R57), the core's read (R55), the fetch
(R111, R112), and what none of them touches. -/

namespace Sys2Proof.Machine

/-- `KbdTake` gives the first pending byte and leaves the rest (R15). -/
theorem kbdTake_cons {s : State} {b : Byte} {bs : List Byte} (h : s.kbdIn = b :: bs) :
    s.kbdTake = some (b, s.setKbdIn bs) := by
  simp [State.kbdTake, h]

theorem kbdTake_nil {s : State} (h : s.kbdIn = []) : s.kbdTake = none := by
  simp [State.kbdTake, h]

/-- The poll with a pending byte (R57). -/
theorem kbdPoll_cons {s : State} {b : Byte} {bs : List Byte} (h : s.kbdIn = b :: bs) :
    s.kbdPoll = ((s.setKbdIn bs).memWrite 0xFE00#16 0x8000#16).memWrite 0xFE02#16 (b.setWidth 16) := by
  simp [State.kbdPoll, kbdTake_cons h, Config.kbsr, Config.kbdr, Config.kbsrReady]

/-- The poll with nothing pending (R57). -/
theorem kbdPoll_nil {s : State} (h : s.kbdIn = []) : s.kbdPoll = s.memWrite 0xFE00#16 0x0000#16 := by
  simp [State.kbdPoll, kbdTake_nil h, Config.kbsr, Config.kbsrIdle]

/-- What a poll, and so any core read, can do: nothing; or clear KBSR with an empty queue; or take one byte (R55, R57). -/
theorem readEffect_cases (a : Addr) (s : State) :
    (a ≠ 0xFE00#16 ∧ s.readEffect a = s) ∨
    (a = 0xFE00#16 ∧ s.kbdIn = [] ∧ s.readEffect a = s.memWrite 0xFE00#16 0x0000#16) ∨
    (a = 0xFE00#16 ∧ ∃ b bs, s.kbdIn = b :: bs ∧
      s.readEffect a = ((s.setKbdIn bs).memWrite 0xFE00#16 0x8000#16).memWrite 0xFE02#16 (b.setWidth 16)) := by
  by_cases ha : a = 0xFE00#16
  · cases hk : s.kbdIn with
    | nil => exact .inr (.inl ⟨ha, rfl, by simp [State.readEffect, ha, Config.kbsr, kbdPoll_nil hk]⟩)
    | cons b bs => exact .inr (.inr ⟨ha, b, bs, rfl, by simp [State.readEffect, ha, Config.kbsr, kbdPoll_cons hk]⟩)
  · exact .inl ⟨ha, by simp [State.readEffect, ha, Config.kbsr]⟩

section readFrame

variable (a : Addr) (s : State)

@[simp] theorem readEffect_regs : (s.readEffect a).regs = s.regs := by
  rcases readEffect_cases a s with ⟨_, h⟩ | ⟨_, _, h⟩ | ⟨_, _, _, _, h⟩ <;> simp [h]

@[simp] theorem readEffect_pc : (s.readEffect a).pc = s.pc := by
  rcases readEffect_cases a s with ⟨_, h⟩ | ⟨_, _, h⟩ | ⟨_, _, _, _, h⟩ <;> simp [h]

@[simp] theorem readEffect_cond : (s.readEffect a).cond = s.cond := by
  rcases readEffect_cases a s with ⟨_, h⟩ | ⟨_, _, h⟩ | ⟨_, _, _, _, h⟩ <;> simp [h]

@[simp] theorem readEffect_run : (s.readEffect a).run = s.run := by
  rcases readEffect_cases a s with ⟨_, h⟩ | ⟨_, _, h⟩ | ⟨_, _, _, _, h⟩ <;> simp [h]

@[simp] theorem readEffect_conOut : (s.readEffect a).conOut = s.conOut := by
  rcases readEffect_cases a s with ⟨_, h⟩ | ⟨_, _, h⟩ | ⟨_, _, _, _, h⟩ <;> simp [h]

@[simp] theorem readEffect_getReg (q : RegIdx) : (s.readEffect a).getReg q = s.getReg q := by
  simp [State.getReg]

/-- A read leaves every word but the two keyboard words as it was. -/
theorem readEffect_read_of_ne {b : Addr} (h1 : b ≠ 0xFE00#16) (h2 : b ≠ 0xFE02#16) :
    (s.readEffect a).mem.read b = s.mem.read b := by
  rcases readEffect_cases a s with ⟨_, h⟩ | ⟨_, _, h⟩ | ⟨_, _, _, _, h⟩ <;> simp [h, h1, h2]

/-- A read takes bytes from the front of KBD_IN only, and at most one. -/
theorem readEffect_kbdIn_suffix : (s.readEffect a).kbdIn <:+ s.kbdIn := by
  rcases readEffect_cases a s with ⟨_, h⟩ | ⟨_, _, h⟩ | ⟨_, b, bs, hk, h⟩
  · simp [h]
  · simp [h]
  · simp [h, hk]

theorem readEffect_wf (hw : s.mem.wf = true) : (s.readEffect a).mem.wf = true := by
  rcases readEffect_cases a s with ⟨_, h⟩ | ⟨_, _, h⟩ | ⟨_, _, _, _, h⟩
  · simpa [h] using hw
  · simpa [h] using wf_write _ _ hw
  · simpa [h] using wf_write _ _ (wf_write _ _ hw)

/-- A read's effect does not depend on COND. -/
theorem readEffect_withCond (c : BitVec 3) :
    State.readEffect a { s with cond := c } = { s.readEffect a with cond := c } := by
  by_cases h : a = 0xFE00#16
  · cases hk : s.kbdIn <;>
      simp [State.readEffect, Config.kbsr, h, State.kbdPoll, State.kbdTake, hk, State.memWrite, State.setKbdIn]
  · simp [State.readEffect, Config.kbsr, h]

/-- A read's effect does not depend on CON_OUT. -/
theorem readEffect_withConOut (out : List Byte) :
    State.readEffect a { s with conOut := out } = { s.readEffect a with conOut := out } := by
  by_cases h : a = 0xFE00#16
  · cases hk : s.kbdIn <;>
      simp [State.readEffect, Config.kbsr, h, State.kbdPoll, State.kbdTake, hk, State.memWrite, State.setKbdIn]
  · simp [State.readEffect, Config.kbsr, h]

end readFrame

@[simp] theorem memRead_fst (a : Addr) (s : State) : (s.memRead a).1 = (s.readEffect a).mem.read a := rfl

@[simp] theorem memRead_snd (a : Addr) (s : State) : (s.memRead a).2 = s.readEffect a := rfl

/-- Everywhere but at 0xFE00 a core read returns the stored word and changes nothing (R55). -/
theorem memRead_of_ne {a : Addr} (h : a ≠ 0xFE00#16) (s : State) : s.memRead a = (s.mem.read a, s) := by
  simp [State.memRead, State.readEffect, Config.kbsr, h]

/-- A read of 0xFE00 returns 0x8000 when it took a byte (R55). -/
theorem memRead_kbsr_cons {s : State} {b : Byte} {bs : List Byte} (h : s.kbdIn = b :: bs) :
    (s.memRead 0xFE00#16).1 = 0x8000#16 := by
  simp [State.readEffect, Config.kbsr, kbdPoll_cons h]

/-- A read of 0xFE00 returns 0 when no byte was pending (R55). -/
theorem memRead_kbsr_nil {s : State} (h : s.kbdIn = []) : (s.memRead 0xFE00#16).1 = 0x0000#16 := by
  simp [State.readEffect, Config.kbsr, kbdPoll_nil h]

theorem fetch_fst (s : State) : s.fetch.1 = (s.readEffect s.pc).mem.read s.pc := rfl

theorem fetch_snd (s : State) : s.fetch.2 = (s.readEffect s.pc).setPc (s.pc + 1#16) := rfl

/-- The fetch from any address but 0xFE00 (R111, R112). -/
theorem fetch_of_ne {s : State} (h : s.pc ≠ 0xFE00#16) : s.fetch = (s.mem.read s.pc, s.setPc (s.pc + 1#16)) := by
  simp [State.fetch, memRead_of_ne h]

end Sys2Proof.Machine
end

