-- ==== Sys2Proof/Laws/Launch.lean ====
section
/-! SUPPORT. Loading words (R222, R223): what it leaves of a state, and what memory reads inside and outside the words loaded. -/

namespace Sys2Proof.Machine

/-- Loading writes memory and nothing else, and keeps its canonical form. -/
theorem loadWords_frame (ws : List Word) (a : Addr) (s : State) :
    (s.loadWords a ws).regs = s.regs ∧ (s.loadWords a ws).pc = s.pc ∧ (s.loadWords a ws).cond = s.cond ∧
    (s.loadWords a ws).run = s.run ∧ (s.loadWords a ws).kbdIn = s.kbdIn ∧ (s.loadWords a ws).conOut = s.conOut ∧
    (s.mem.wf = true → (s.loadWords a ws).mem.wf = true) := by
  induction ws generalizing a s with
  | nil => simp [State.loadWords]
  | cons w ws ih =>
    obtain ⟨h1, h2, h3, h4, h5, h6, h7⟩ := ih (a + 1#16) (s.memWrite a w)
    exact ⟨h1, h2, h3, h4, h5, h6, fun h => h7 (wf_write _ _ h)⟩

/-- The address after one that is not the last does not wrap. -/
theorem toNat_succ {a : Addr} (h : a.toNat + 1 < 65536) : (a + 1#16).toNat = a.toNat + 1 := by
  simp only [BitVec.toNat_add, BitVec.toNat_ofNat]
  omega

/-- Words that fit leave every address outside their range alone. -/
theorem loadWords_read_outside (ws : List Word) (a b : Addr) (s : State) (hfit : a.toNat + ws.length ≤ 65536)
    (hb : b.toNat < a.toNat ∨ a.toNat + ws.length ≤ b.toNat) : (s.loadWords a ws).mem.read b = s.mem.read b := by
  induction ws generalizing a s with
  | nil => rfl
  | cons w ws ih =>
    simp only [List.length_cons] at hfit hb
    have hne : b ≠ a := by rintro rfl; omega
    simp only [State.loadWords]
    rcases Nat.lt_or_ge (a.toNat + 1) 65536 with h | h
    · have h1 := toNat_succ h
      rw [ih _ _ (by omega) (by omega)]
      simp [hne]
    · obtain rfl : ws = [] := List.length_eq_zero_iff.1 (by omega)
      simp [State.loadWords, hne]

/-- Words that fit stand at their places. -/
theorem loadWords_read_inside (ws : List Word) (a : Addr) (s : State) (k : Nat) (h : k < ws.length)
    (hfit : a.toNat + ws.length ≤ 65536) : (s.loadWords a ws).mem.read (a + BitVec.ofNat 16 k) = ws[k] := by
  induction ws generalizing a s k with
  | nil => simp at h
  | cons w ws ih =>
    simp only [List.length_cons] at h hfit
    simp only [State.loadWords]
    rcases Nat.lt_or_ge (a.toNat + 1) 65536 with h1 | h1
    · have e := toNat_succ h1
      cases k with
      | zero =>
        rw [loadWords_read_outside ws _ _ _ (by omega) (.inl (by simp only [BitVec.add_zero]; omega))]
        simp
      | succ k =>
        have ea : a + BitVec.ofNat 16 (k + 1) = a + 1#16 + BitVec.ofNat 16 k := by
          rw [BitVec.add_assoc, Nat.add_comm, BitVec.ofNat_add]
        rw [ea]
        simpa using ih (a + 1#16) (s.memWrite a w) k (by omega) (by omega)
    · obtain rfl : ws = [] := List.length_eq_zero_iff.1 (by omega)
      obtain rfl : k = 0 := by simpa using h
      simp [State.loadWords]

end Sys2Proof.Machine
end

