-- ==== Sys2Proof/Laws/PerInstr.lean ====
section
/-! SUPPORT. Facts about every instruction as syntax, one lemma per constructor. Family `TableRow`: an instruction's encoded
word matches its row of `spec/opcode_table.json` (R87, R88). -/

namespace Sys2Proof.Laws.TableRow

/-- An instruction's row of the opcode table: its mask and its match. -/
def row : Instr → Word × Word
  | .br _ _ => (0xF000#16, 0x0000#16)
  | .addReg _ _ _ => (0xF020#16, 0x1000#16)
  | .addImm _ _ _ => (0xF020#16, 0x1020#16)
  | .ld _ _ => (0xF000#16, 0x2000#16)
  | .st _ _ => (0xF000#16, 0x3000#16)
  | .jsr _ => (0xF800#16, 0x4800#16)
  | .jsrr _ => (0xF800#16, 0x4000#16)
  | .andReg _ _ _ => (0xF020#16, 0x5000#16)
  | .andImm _ _ _ => (0xF020#16, 0x5020#16)
  | .ldr _ _ _ => (0xF000#16, 0x6000#16)
  | .str _ _ _ => (0xF000#16, 0x7000#16)
  | .rti => (0xF000#16, 0x8000#16)
  | .notOp _ _ => (0xF000#16, 0x9000#16)
  | .ldi _ _ => (0xF000#16, 0xA000#16)
  | .sti _ _ => (0xF000#16, 0xB000#16)
  | .jmp _ => (0xF000#16, 0xC000#16)
  | .res => (0xF000#16, 0xD000#16)
  | .lea _ _ => (0xF000#16, 0xE000#16)
  | .getc => (0xF0FF#16, 0xF020#16)
  | .out => (0xF0FF#16, 0xF021#16)
  | .puts => (0xF0FF#16, 0xF022#16)
  | .inOp => (0xF0FF#16, 0xF023#16)
  | .putsp => (0xF0FF#16, 0xF024#16)
  | .halt => (0xF0FF#16, 0xF025#16)
  | .trapUnknown _ => (0xF000#16, 0xF000#16)

/-- The encoded word matches the instruction's row of the opcode table. -/
def Statement (i : Instr) : Prop := encode i &&& (row i).1 = (row i).2

theorem br (nzp : BitVec 3) (off : BitVec 9) : Statement (.br nzp off) :=
  or_and_mask (m := 0xF000#16) (r := 0x0000#16) (or_and_mask (by decide) (place_and_mask 9 nzp (by decide)))
    (place_and_mask 0 off (by decide))

theorem addReg (dr sr1 sr2 : RegIdx) : Statement (.addReg dr sr1 sr2) :=
  or_and_mask (m := 0xF020#16) (r := 0x1000#16) (or_and_mask (or_and_mask (by decide) (place_and_mask 9 (bitsOfReg dr) (by decide)))
    (place_and_mask 6 (bitsOfReg sr1) (by decide))) (place_and_mask 0 (bitsOfReg sr2) (by decide))

theorem addImm (dr sr1 : RegIdx) (imm : BitVec 5) : Statement (.addImm dr sr1 imm) :=
  or_and_mask (m := 0xF020#16) (r := 0x1020#16) (or_and_mask (or_and_mask (by decide) (place_and_mask 9 (bitsOfReg dr) (by decide)))
    (place_and_mask 6 (bitsOfReg sr1) (by decide))) (place_and_mask 0 imm (by decide))

theorem ld (dr : RegIdx) (off : BitVec 9) : Statement (.ld dr off) :=
  or_and_mask (m := 0xF000#16) (r := 0x2000#16) (or_and_mask (by decide) (place_and_mask 9 (bitsOfReg dr) (by decide)))
    (place_and_mask 0 off (by decide))

theorem st (sr : RegIdx) (off : BitVec 9) : Statement (.st sr off) :=
  or_and_mask (m := 0xF000#16) (r := 0x3000#16) (or_and_mask (by decide) (place_and_mask 9 (bitsOfReg sr) (by decide)))
    (place_and_mask 0 off (by decide))

theorem jsr (off : BitVec 11) : Statement (.jsr off) :=
  or_and_mask (m := 0xF800#16) (r := 0x4800#16) (by decide) (place_and_mask 0 off (by decide))

theorem jsrr (base : RegIdx) : Statement (.jsrr base) :=
  or_and_mask (m := 0xF800#16) (r := 0x4000#16) (by decide) (place_and_mask 6 (bitsOfReg base) (by decide))

theorem andReg (dr sr1 sr2 : RegIdx) : Statement (.andReg dr sr1 sr2) :=
  or_and_mask (m := 0xF020#16) (r := 0x5000#16) (or_and_mask (or_and_mask (by decide) (place_and_mask 9 (bitsOfReg dr) (by decide)))
    (place_and_mask 6 (bitsOfReg sr1) (by decide))) (place_and_mask 0 (bitsOfReg sr2) (by decide))

theorem andImm (dr sr1 : RegIdx) (imm : BitVec 5) : Statement (.andImm dr sr1 imm) :=
  or_and_mask (m := 0xF020#16) (r := 0x5020#16) (or_and_mask (or_and_mask (by decide) (place_and_mask 9 (bitsOfReg dr) (by decide)))
    (place_and_mask 6 (bitsOfReg sr1) (by decide))) (place_and_mask 0 imm (by decide))

theorem ldr (dr base : RegIdx) (off : BitVec 6) : Statement (.ldr dr base off) :=
  or_and_mask (m := 0xF000#16) (r := 0x6000#16) (or_and_mask (or_and_mask (by decide) (place_and_mask 9 (bitsOfReg dr) (by decide)))
    (place_and_mask 6 (bitsOfReg base) (by decide))) (place_and_mask 0 off (by decide))

theorem str (sr base : RegIdx) (off : BitVec 6) : Statement (.str sr base off) :=
  or_and_mask (m := 0xF000#16) (r := 0x7000#16) (or_and_mask (or_and_mask (by decide) (place_and_mask 9 (bitsOfReg sr) (by decide)))
    (place_and_mask 6 (bitsOfReg base) (by decide))) (place_and_mask 0 off (by decide))

theorem rti : Statement .rti := rfl

theorem notOp (dr sr1 : RegIdx) : Statement (.notOp dr sr1) :=
  or_and_mask (m := 0xF000#16) (r := 0x9000#16) (or_and_mask (or_and_mask (by decide) (place_and_mask 9 (bitsOfReg dr) (by decide)))
    (place_and_mask 6 (bitsOfReg sr1) (by decide))) (place_and_mask 0 0b111111#6 (by decide))

theorem ldi (dr : RegIdx) (off : BitVec 9) : Statement (.ldi dr off) :=
  or_and_mask (m := 0xF000#16) (r := 0xA000#16) (or_and_mask (by decide) (place_and_mask 9 (bitsOfReg dr) (by decide)))
    (place_and_mask 0 off (by decide))

theorem sti (sr : RegIdx) (off : BitVec 9) : Statement (.sti sr off) :=
  or_and_mask (m := 0xF000#16) (r := 0xB000#16) (or_and_mask (by decide) (place_and_mask 9 (bitsOfReg sr) (by decide)))
    (place_and_mask 0 off (by decide))

theorem jmp (base : RegIdx) : Statement (.jmp base) :=
  or_and_mask (m := 0xF000#16) (r := 0xC000#16) (by decide) (place_and_mask 6 (bitsOfReg base) (by decide))

theorem res : Statement .res := rfl

theorem lea (dr : RegIdx) (off : BitVec 9) : Statement (.lea dr off) :=
  or_and_mask (m := 0xF000#16) (r := 0xE000#16) (or_and_mask (by decide) (place_and_mask 9 (bitsOfReg dr) (by decide)))
    (place_and_mask 0 off (by decide))

theorem getc : Statement .getc := rfl

theorem out : Statement .out := rfl

theorem puts : Statement .puts := rfl

theorem inOp : Statement .inOp := rfl

theorem putsp : Statement .putsp := rfl

theorem halt : Statement .halt := rfl

theorem trapUnknown (vector : BitVec 8) : Statement (.trapUnknown vector) :=
  or_and_mask (m := 0xF000#16) (r := 0xF000#16) (by decide) (place_and_mask 0 vector (by decide))

end Sys2Proof.Laws.TableRow
end

