-- ==== Sys2Proof/Laws/Trap.lean ====
section
/-! SUPPORT. The string walk of PUTS and PUTSP (R163, R165): what it can do to the state, and that its bound is never
exhausted (log 18). -/

namespace Sys2Proof.Machine

theorem stringWalk_succ (emit : Word → List Byte) (n : Nat) (a : Addr) (s : State) :
    stringWalk emit (n + 1) a s =
      if (s.readEffect a).mem.read a = 0x0000#16 then some (s.readEffect a)
      else stringWalk emit n (a + 1#16) ((s.readEffect a).conPut (emit ((s.readEffect a).mem.read a))) := rfl

/-- All a walk does is read words and output bytes: what both keep, the walk keeps. -/
theorem stringWalk_keeps (P : State → Prop) (hread : ∀ a s, P s → P (s.readEffect a)) (hput : ∀ bs s, P s → P (s.conPut bs))
    {emit : Word → List Byte} {n : Nat} {a : Addr} {s t : State} (h : stringWalk emit n a s = some t) (hs : P s) : P t := by
  induction n generalizing a s with
  | zero => simp [stringWalk] at h
  | succ n ih =>
    rw [stringWalk_succ] at h
    split at h
    · simp only [Option.some.injEq] at h
      exact h ▸ hread a s hs
    · exact ih h (hput _ _ (hread a s hs))

/-- How many words the walk reads before it reads 0xFE00. -/
def toKbsr (a : Addr) : Nat := (0xFE00#16 - a).toNat

theorem toKbsr_succ {a : Addr} (h : a ≠ 0xFE00#16) : toKbsr (a + 1#16) + 1 = toKbsr a := by
  simp only [toKbsr]
  have : a.toNat ≠ 0xFE00 := fun e => h (BitVec.eq_of_toNat_eq (by simpa using e))
  bv_omega

/-- A walk with enough fuel completes: each lap takes a pending byte at 0xFE00, and with none left it ends there. -/
theorem stringWalk_completes (emit : Word → List Byte) (n : Nat) (a : Addr) (s : State)
    (h : toKbsr a + 1 + 65536 * s.kbdIn.length ≤ n) : ∃ t, stringWalk emit n a s = some t := by
  induction n generalizing a s with
  | zero => omega
  | succ n ih =>
    rw [stringWalk_succ]
    split
    · exact ⟨_, rfl⟩
    rename_i hw
    apply ih
    rcases readEffect_cases a s with ⟨ha, hr⟩ | ⟨ha, hk, hr⟩ | ⟨ha, b, bs, hk, hr⟩
    · have := toKbsr_succ ha
      simp only [hr, conPut_kbdIn]
      omega
    · exact absurd (by rw [hr, ha]; simp) hw
    · have h0 : toKbsr (a + 1#16) = 65535 := by subst ha; decide
      have h1 : s.kbdIn.length = bs.length + 1 := by simp [hk]
      simp only [hr, conPut_kbdIn, memWrite_kbdIn, setKbdIn_kbdIn]
      omega

/-- The model's bound is enough from every state and every address (log 18). -/
theorem stringWalk_bound (emit : Word → List Byte) (a : Addr) (s : State) :
    ∃ t, stringWalk emit (walkBound s) a s = some t := by
  apply stringWalk_completes
  have : toKbsr a < 65536 := (0xFE00#16 - a).isLt
  simp only [walkBound]
  omega

/-- `printString` always answers a next state, the one its walk ends in. -/
theorem printString_next (emit : Word → List Byte) (s : State) :
    ∃ t, printString emit s = .next t ∧ stringWalk emit (walkBound s) (s.getReg 0) s = some t := by
  obtain ⟨t, h⟩ := stringWalk_bound emit (s.getReg 0) s
  exact ⟨t, by simp [printString, h], h⟩

/-- What printing a string leaves alone, and how it moves the console (R163, R165, R168). -/
theorem printString_frame {emit : Word → List Byte} {s t : State} (h : printString emit s = .next t) :
    t.regs = s.regs ∧ t.pc = s.pc ∧ t.cond = s.cond ∧ t.run = s.run ∧
    (∀ a, a ≠ 0xFE00#16 → a ≠ 0xFE02#16 → t.mem.read a = s.mem.read a) ∧
    t.kbdIn <:+ s.kbdIn ∧ s.conOut <+: t.conOut ∧ (s.mem.wf = true → t.mem.wf = true) := by
  obtain ⟨u, hu, hw⟩ := printString_next emit s
  obtain rfl : u = t := by simpa [hu] using h
  refine stringWalk_keeps
    (fun t => t.regs = s.regs ∧ t.pc = s.pc ∧ t.cond = s.cond ∧ t.run = s.run ∧
      (∀ a, a ≠ 0xFE00#16 → a ≠ 0xFE02#16 → t.mem.read a = s.mem.read a) ∧
      t.kbdIn <:+ s.kbdIn ∧ s.conOut <+: t.conOut ∧ (s.mem.wf = true → t.mem.wf = true)) ?_ ?_ hw ?_
  · rintro a v ⟨h1, h2, h3, h4, h5, h6, h7, h8⟩
    refine ⟨by simp [h1], by simp [h2], by simp [h3], by simp [h4], fun b hb hb' => ?_, ?_, by simpa using h7, ?_⟩
    · rw [readEffect_read_of_ne a v hb hb', h5 b hb hb']
    · exact (readEffect_kbdIn_suffix a v).trans h6
    · exact fun hs => readEffect_wf a v (h8 hs)
  · rintro bs v ⟨h1, h2, h3, h4, h5, h6, h7, h8⟩
    exact ⟨h1, h2, h3, h4, h5, h6, h7.trans (List.prefix_append _ _), h8⟩
  · exact ⟨rfl, rfl, rfl, rfl, fun _ _ _ => rfl, List.suffix_rfl, List.prefix_rfl, id⟩

/-- All GETC can do: wait, or take the first byte (R116, R161). -/
theorem execGetc_cases (s : State) :
    (s.kbdIn = [] ∧ execGetc s = .next s.awaitInput) ∨
    ∃ b bs, s.kbdIn = b :: bs ∧ execGetc s = .next ((s.trapEntry.setKbdIn bs).setRegCC 0 (zextByte b)) := by
  cases h : s.kbdIn with
  | nil => exact .inl ⟨rfl, by simp [execGetc, State.kbdTake, h]⟩
  | cons b bs => exact .inr ⟨b, bs, rfl, by simp [execGetc, State.kbdTake, h]⟩

/-- All IN can do: wait, or prompt, take the first byte and echo it (R116, R164). -/
theorem execIn_cases (s : State) :
    (s.kbdIn = [] ∧ execIn s = .next s.awaitInput) ∨
    ∃ b bs, s.kbdIn = b :: bs ∧
      execIn s = .next ((((s.trapEntry.conPut inPrompt).setKbdIn bs).conPut [b]).setRegCC 0 (zextByte b)) := by
  cases h : s.kbdIn with
  | nil => exact .inl ⟨rfl, by simp [execIn, State.kbdTake, h]⟩
  | cons b bs => exact .inr ⟨b, bs, rfl, by simp [execIn, State.kbdTake, h]⟩

end Sys2Proof.Machine
end

