-- ==== Sys2Proof/Laws/Step.lean ====
section
/-! SUPPORT. The step cut along R110: a halted core, the fetch from plain memory, the fetch from the keyboard word, the waiting
core, and the step of a placed word. -/

namespace Sys2Proof.Machine

/-- A running core executes the decoded word in the fetched state (R110). -/
theorem step_of_run {s : State} (h : s.run = true) : step s = exec (decode s.fetch.1) s.fetch.2 := by
  simp [step, h]

/-- A halted core has no step (R32). -/
theorem step_of_halted {s : State} (h : s.run = false) : step s = .next s := by
  simp [step, h]

/-- The step from plain memory (R111, R112). -/
theorem step_of_ne {s : State} (h : s.run = true) (hp : s.pc ≠ 0xFE00#16) :
    step s = exec (decode (s.mem.read s.pc)) (s.setPc (s.pc + 1#16)) := by
  rw [step_of_run h, fetch_of_ne hp]

/-- What a waiting state is (R116). -/
theorem waiting_iff {s : State} : s.waiting = true ↔
    s.run = true ∧ s.kbdIn = [] ∧ s.pc ≠ 0xFE00#16 ∧ needsInput (decode (s.mem.read s.pc)) = true := by
  simp [State.waiting, Config.kbsr, and_assoc]

/-- A waiting core changes nothing (R116). -/
theorem step_of_waiting {s : State} (h : s.waiting = true) : step s = .next s := by
  obtain ⟨hr, hk, hp, hi⟩ := waiting_iff.1 h
  rw [step_of_ne hr hp]
  have hback : (s.setPc (s.pc + 1#16)).awaitInput = s := awaitInput_setPc_succ s s.pc
  cases hd : decode (s.mem.read s.pc) <;> simp [hd, needsInput] at hi
  · simp [exec, execGetc, State.kbdTake, hk, hback]
  · simp [exec, execIn, State.kbdTake, hk, hback]

/-- The placed word is what the next step fetches and executes (log 19). -/
theorem step_withFetchWord (s : State) (w : Nat) :
    step (s.withFetchWord 16 w) =
      exec (decode (BitVec.ofNat 16 w)) ((s.withFetchWord 16 w).setPc (s.fetchPlace + 1#16)) := by
  have hp : s.fetchPlace ≠ 0xFE00#16 := by
    by_cases h : s.pc = 0xFE00#16
    · simp [State.fetchPlace, Config.kbsr, Config.resetPc, h]
    · simp [State.fetchPlace, Config.kbsr, h]
  have hw : BitVec.ofNat 16 (w % 2 ^ 16) = BitVec.ofNat 16 w := by
    apply BitVec.eq_of_toNat_eq; simp
  have hr : (s.withFetchWord 16 w).mem.read s.fetchPlace = BitVec.ofNat 16 (w % 2 ^ 16) := by
    simp [State.withFetchWord]
  have h := step_of_ne (s := s.withFetchWord 16 w) rfl hp
  rw [← hw, ← hr]
  exact h

end Sys2Proof.Machine
end

