-- ==== Sys2Proof/Tests/Slice0.lean ====
section
/-! SUPPORT. The model's own tests: the well-formedness smoke, one written-out word for every constructor, single steps whose
expected results are the vectors of `spec/95_test_vectors.md` (named in each docstring), and a witness for the hypotheses of
every obligation that has any. -/

namespace Sys2Proof.Tests

open Sys2Proof.Machine Sys2Proof.Claims

/-! ## Helpers -/

/-- The reset state with PC at an address, words placed and registers set: the convention of `spec/95_test_vectors.md`. -/
def start (pc : Word) (words : List (Word × Word)) (regs : List (RegIdx × Word)) : State :=
  regs.foldl (fun s r => s.setReg r.1 r.2) (words.foldl (fun s m => s.memWrite m.1 m.2) (State.reset.setPc pc))

/-- What is seen of the state after one step; nothing when the step has no next state. -/
def look {α : Type} (f : State → α) (s : State) : Option α :=
  match step s with
  | .next t => some (f t)
  | .fault _ => none
  | .refused _ => none

/-- A register, COND and PC. -/
def rcp (r : RegIdx) (t : State) : Word × BitVec 3 × Word := (t.getReg r, t.cond, t.pc)

/-- A memory word, COND and PC. -/
def mcp (a : Addr) (t : State) : Word × BitVec 3 × Word := (t.mem.read a, t.cond, t.pc)

/-- What a keyboard access shows: a register, KBSR, KBDR and KBD_IN. -/
def kbd (r : RegIdx) (t : State) : Word × Word × Word × List Byte :=
  (t.getReg r, t.mem.read 0xFE00#16, t.mem.read 0xFE02#16, t.kbdIn)

/-- What a halt shows: R7, PC, RUN, CON_OUT and COND. -/
def stop (t : State) : Word × Word × Bool × List Byte × BitVec 3 := (t.getReg 7, t.pc, t.run, t.conOut, t.cond)

/-! ## Well-formedness (R89, R167): the known vectors are not the unknown-vector row -/

theorem test_wf_refuses_known_vectors :
    Instr.wellFormed (.trapUnknown 0x20#8) = false ∧ Instr.wellFormed (.trapUnknown 0x21#8) = false ∧
    Instr.wellFormed (.trapUnknown 0x22#8) = false ∧ Instr.wellFormed (.trapUnknown 0x23#8) = false ∧
    Instr.wellFormed (.trapUnknown 0x24#8) = false ∧ Instr.wellFormed (.trapUnknown 0x25#8) = false := by decide

theorem test_wf_accepts_unknown_vectors :
    Instr.wellFormed (.trapUnknown 0x1F#8) = true ∧ Instr.wellFormed (.trapUnknown 0x26#8) = true ∧
    Instr.wellFormed (.trapUnknown 0x00#8) = true ∧ Instr.wellFormed (.addReg 7 0 7) = true := by decide

/-! ## Decoding, every constructor by a word written out from the layouts of R82 and the opcodes of R87 -/

theorem test_decode_br : decode 0b0000101100000001#16 = .br 0b101#3 0b100000001#9 := by decide
theorem test_decode_add_reg : decode 0b0001010011000100#16 = .addReg 2 3 4 := by decide
theorem test_decode_add_imm : decode 0b0001110101110000#16 = .addImm 6 5 0b10000#5 := by decide
theorem test_decode_ld : decode 0b0010001111111110#16 = .ld 1 0b111111110#9 := by decide
theorem test_decode_st : decode 0b0011110000000001#16 = .st 6 0b000000001#9 := by decide
theorem test_decode_jsr : decode 0b0100110000000001#16 = .jsr 0b10000000001#11 := by decide
theorem test_decode_jsrr : decode 0b0100000101000000#16 = .jsrr 5 := by decide
theorem test_decode_and_reg : decode 0b0101001010000011#16 = .andReg 1 2 3 := by decide
theorem test_decode_and_imm : decode 0b0101001010101111#16 = .andImm 1 2 0b01111#5 := by decide
theorem test_decode_ldr : decode 0b0110010110111111#16 = .ldr 2 6 0b111111#6 := by decide
theorem test_decode_str : decode 0b0111001110100001#16 = .str 1 6 0b100001#6 := by decide
theorem test_decode_rti : decode 0b1000111111111111#16 = .rti := by decide
theorem test_decode_not : decode 0b1001100101111111#16 = .notOp 4 5 := by decide
theorem test_decode_ldi : decode 0b1010011000000010#16 = .ldi 3 0b000000010#9 := by decide
theorem test_decode_sti : decode 0b1011000100001000#16 = .sti 0 0b100001000#9 := by decide
theorem test_decode_jmp : decode 0b1100000010000000#16 = .jmp 2 := by decide
theorem test_decode_ret : decode 0b1100000111000000#16 = .jmp 7 := by decide
theorem test_decode_res : decode 0b1101000100100011#16 = .res := by decide
theorem test_decode_lea : decode 0b1110101000000010#16 = .lea 5 0b000000010#9 := by decide
theorem test_decode_getc : decode 0b1111000000100000#16 = .getc := by decide
theorem test_decode_out : decode 0b1111000000100001#16 = .out := by decide
theorem test_decode_puts : decode 0b1111000000100010#16 = .puts := by decide
theorem test_decode_in : decode 0b1111000000100011#16 = .inOp := by decide
theorem test_decode_putsp : decode 0b1111000000100100#16 = .putsp := by decide
theorem test_decode_halt : decode 0b1111000000100101#16 = .halt := by decide
theorem test_decode_trap_unknown : decode 0b1111000011111111#16 = .trapUnknown 0xFF#8 := by decide

/-- Ignored bits (R91): vectors A6, T4, J3, G5. -/
theorem test_decode_ignored_bits :
    decode 0b0001010011011100#16 = .addReg 2 3 4 ∧ decode 0b1001000000000000#16 = .notOp 0 0 ∧
    decode 0b1100111010111111#16 = .jmp 2 ∧ decode 0b1111111100100000#16 = .getc := by decide

/-- The encoder writes zeros in ignored bits, ones in NOT (R92): vectors T1, S4, J2, H2. -/
theorem test_encode_canonical :
    encode (.notOp 4 5) = 0x997F#16 ∧ encode (.jsrr 5) = 0x4140#16 ∧ encode (.jmp 7) = 0xC1C0#16 ∧
    encode (.trapUnknown 0xFF#8) = 0xF0FF#16 := by decide

/-- The table's numbering: one 16-bit word, bit 0 least significant (R10, R80). -/
theorem test_decode_table_word : decodeTableWord 16 0xF025 = some .halt := by decide

/-- A placed word runs as the first instruction after reset (log 19). -/
theorem test_with_fetch_word : look stop (State.reset.withFetchWord 16 0xF025) =
    some (0x3001#16, 0x3001#16, false, [0x48#8, 0x41#8, 0x4C#8, 0x54#8], 0b010#3) := by decide

/-! ## Helpers of the spec (R13, R14): tables S1, S2 and 2.1 -/

theorem test_sext : sext 5 0x1230#16 = 0xFFF0#16 ∧ sext 6 0x0020#16 = 0xFFE0#16 ∧ sext 9 0x00FF#16 = 0x00FF#16 ∧
    sext 11 0x0400#16 = 0xFC00#16 ∧ zextByte 0xFF#8 = 0x00FF#16 := by decide

theorem test_setcc : condOf 0x0000#16 = 0b010#3 ∧ condOf 0x0001#16 = 0b001#3 ∧ condOf 0x7FFF#16 = 0b001#3 ∧
    condOf 0x8000#16 = 0b100#3 ∧ condOf 0xFFFF#16 = 0b100#3 := by decide

/-! ## Single steps -/

/-- A2: signed overflow wraps into NEG. -/
theorem test_add_overflow : look (rcp 0) (start 0x3000#16 [(0x3000#16, 0x1042#16)] [(1, 0x7FFF#16), (2, 0x0001#16)]) =
    some (0x8000#16, 0b100#3, 0x3001#16) := by decide

/-- A5: the destination is both sources. -/
theorem test_add_self : look (rcp 1) (start 0x3000#16 [(0x3000#16, 0x1241#16)] [(1, 0x1234#16)]) =
    some (0x2468#16, 0b001#3, 0x3001#16) := by decide

/-- S3, third row: 0 - 1. -/
theorem test_add_imm_minus_one : look (rcp 1) (start 0x3000#16 [(0x3000#16, 0x127F#16)] []) =
    some (0xFFFF#16, 0b100#3, 0x3001#16) := by decide

/-- A7: the most negative immediate. -/
theorem test_add_imm_most_negative : look (rcp 1) (start 0x3000#16 [(0x3000#16, 0x1270#16)] [(1, 0x0010#16)]) =
    some (0x0000#16, 0b010#3, 0x3001#16) := by decide

/-- N1. -/
theorem test_and_reg : look (rcp 1) (start 0x3000#16 [(0x3000#16, 0x5283#16)] [(2, 0xF0F0#16), (3, 0x8FF1#16)]) =
    some (0x80F0#16, 0b100#3, 0x3001#16) := by decide

/-- N4: the immediate is sign-extended to a mask of FFF0. -/
theorem test_and_imm : look (rcp 1) (start 0x3000#16 [(0x3000#16, 0x5270#16)] [(1, 0x12FF#16)]) =
    some (0x12F0#16, 0b001#3, 0x3001#16) := by decide

/-- T1. -/
theorem test_not : look (rcp 4) (start 0x3000#16 [(0x3000#16, 0x997F#16)] [(5, 0x00FF#16)]) =
    some (0xFF00#16, 0b100#3, 0x3001#16) := by decide

/-- B1 and B2: taken and not taken under POS. -/
theorem test_br_taken_or_not :
    look (rcp 0) ((start 0x2FFF#16 [(0x2FFF#16, 0x0205#16)] []).setCond 0b001#3) = some (0x0000#16, 0b001#3, 0x3005#16) ∧
    look (rcp 0) ((start 0x2FFF#16 [(0x2FFF#16, 0x0405#16)] []).setCond 0b001#3) = some (0x0000#16, 0b001#3, 0x3000#16) := by
  decide

/-- B10: the target wraps below 0. -/
theorem test_br_wraps : look (fun t => t.pc) (start 0x0010#16 [(0x0010#16, 0x0F00#16)] []) = some 0xFF11#16 := by decide

/-- J2: RET leaves R7. -/
theorem test_ret : look (rcp 7) (start 0x3009#16 [(0x3009#16, 0xC1C0#16)] [(7, 0x3002#16)]) =
    some (0x3002#16, 0b010#3, 0x3002#16) := by decide

/-- S1. -/
theorem test_jsr : look (rcp 7) (start 0x2FFF#16 [(0x2FFF#16, 0x4810#16)] [(7, 0x1111#16)]) =
    some (0x3000#16, 0b010#3, 0x3010#16) := by decide

/-- S4. -/
theorem test_jsrr : look (rcp 7) (start 0x3005#16 [(0x3005#16, 0x4140#16)] [(5, 0x3007#16)]) =
    some (0x3006#16, 0b010#3, 0x3007#16) := by decide

/-- S5: JSRR R7 falls through (D7, log 6). -/
theorem test_jsrr_r7 : look (rcp 7) (start 0x3000#16 [(0x3000#16, 0x41C0#16)] [(7, 0x5000#16)]) =
    some (0x3001#16, 0b010#3, 0x3001#16) := by decide

/-- L1. -/
theorem test_ld : look (rcp 1) (start 0x3000#16 [(0x3000#16, 0x2202#16), (0x3003#16, 0xBEEF#16)] []) =
    some (0xBEEF#16, 0b100#3, 0x3001#16) := by decide

/-- S5 of Part 1. -/
theorem test_ldi : look (rcp 3)
    (start 0x2FFF#16 [(0x2FFF#16, 0xA602#16), (0x3002#16, 0x4000#16), (0x4000#16, 0x1234#16)] []) =
    some (0x1234#16, 0b001#3, 0x3000#16) := by decide

/-- K9: the pointer read polls. -/
theorem test_ldi_pointer_polls : look (kbd 0)
    ((start 0xFDFF#16 [(0xFDFF#16, 0xA000#16), (0x8000#16, 0x0077#16)] []).feed [0x41#8]) =
    some (0x0077#16, 0x8000#16, 0x0041#16, []) := by decide

/-- D2: the destination is the base. -/
theorem test_ldr_same_register : look (rcp 1)
    (start 0x3000#16 [(0x3000#16, 0x6240#16), (0x4000#16, 0x8000#16)] [(1, 0x4000#16)]) =
    some (0x8000#16, 0b100#3, 0x3001#16) := by decide

/-- K1 and K2: a read of 0xFE00 takes the pending byte; with nothing pending it clears KBSR and leaves KBDR. -/
theorem test_ldr_polls :
    look (kbd 0) ((start 0x3000#16 [(0x3000#16, 0x6040#16)] [(1, 0xFE00#16)]).feed [0x41#8]) =
      some (0x8000#16, 0x8000#16, 0x0041#16, []) ∧
    look (kbd 0)
      (start 0x3000#16 [(0x3000#16, 0x6040#16), (0xFE00#16, 0x1234#16), (0xFE02#16, 0x0055#16)] [(1, 0xFE00#16)]) =
      some (0x0000#16, 0x0000#16, 0x0055#16, []) := by decide

/-- E3: LEA wraps and sets COND. -/
theorem test_lea : look (rcp 0) (start 0xFF00#16 [(0xFF00#16, 0xE0FF#16)] [(0, 0x1111#16)]) =
    some (0x0000#16, 0b010#3, 0xFF01#16) := by decide

/-- S9: the store's address wraps. -/
theorem test_st_wraps : look (mcp 0x0000#16) (start 0xFFFE#16 [(0xFFFE#16, 0x3001#16)] [(0, 0x1234#16)]) =
    some (0x1234#16, 0b010#3, 0xFFFF#16) := by decide

/-- K12: a store to KBSR is a plain store. -/
theorem test_st_kbsr : look (kbd 1) ((start 0xFE02#16 [(0xFE02#16, 0x33FD#16)] [(1, 0x4000#16)]).feed [0x41#8]) =
    some (0x4000#16, 0x4000#16, 0x33FD#16, [0x41#8]) := by decide

/-- X2: the pointer word is its own target. -/
theorem test_sti_own_pointer : look (mcp 0x3002#16)
    (start 0x3000#16 [(0x3000#16, 0xB001#16), (0x3002#16, 0x3002#16)] [(0, 0x7777#16)]) =
    some (0x7777#16, 0b010#3, 0x3001#16) := by decide

/-- K10: the pointer read polls and gives 0. -/
theorem test_sti_pointer_polls : look (mcp 0x0000#16) (start 0xFDFF#16 [(0xFDFF#16, 0xB000#16)] [(0, 0x1111#16)]) =
    some (0x1111#16, 0b010#3, 0xFE00#16) := by decide

/-- Y1. -/
theorem test_str : look (mcp 0x4000#16) (start 0x3000#16 [(0x3000#16, 0x71BF#16)] [(6, 0x4001#16), (0, 0x00AB#16)]) =
    some (0x00AB#16, 0b010#3, 0x3001#16) := by decide

/-- G3: the byte is zero-extended, so never NEG. -/
theorem test_getc : look (fun t => (t.getReg 0, t.getReg 7, t.cond, t.kbdIn))
    ((start 0x3000#16 [(0x3000#16, 0xF020#16)] [(0, 0xAAAA#16)]).feed [0xFF#8, 0x41#8]) =
    some (0x00FF#16, 0x3001#16, 0b001#3, [0x41#8]) := by decide

/-- G4: GETC without input waits. -/
theorem test_getc_waits : stepKind (start 0x3000#16 [(0x3000#16, 0xF020#16)] []) = .waiting ∧
    look id (start 0x3000#16 [(0x3000#16, 0xF020#16)] []) = some (start 0x3000#16 [(0x3000#16, 0xF020#16)] []) := by decide

/-- O1. -/
theorem test_out : look (fun t => (t.conOut, t.getReg 7, t.getReg 0, t.cond))
    (start 0x3003#16 [(0x3003#16, 0xF021#16)] [(0, 0x1241#16)]) =
    some ([0x41#8], 0x3004#16, 0x1241#16, 0b010#3) := by decide

/-- P3: high bytes are ignored and do not end the string. -/
theorem test_puts : look (fun t => (t.conOut, t.getReg 7, t.getReg 0))
    (start 0x3000#16 [(0x3000#16, 0xF022#16), (0x4000#16, 0x0141#16), (0x4001#16, 0x4100#16), (0x4002#16, 0x0042#16)]
      [(0, 0x4000#16)]) =
    some ([0x41#8, 0x00#8, 0x42#8], 0x3001#16, 0x4000#16) := by decide

/-- P5: the walk polls at 0xFE00 and prints what the poll wrote. -/
theorem test_puts_polls : look (fun t => (t.conOut, t.mem.read 0xFE00#16, t.mem.read 0xFE02#16, t.kbdIn))
    ((start 0x3000#16 [(0x3000#16, 0xF022#16), (0xFDFF#16, 0x0041#16), (0xFE01#16, 0x0043#16)] [(0, 0xFDFF#16)]).feed [0x6B#8]) =
    some ([0x41#8, 0x00#8, 0x43#8, 0x6B#8], 0x8000#16, 0x006B#16, []) := by decide

/-- I1: prompt, echo, result. -/
theorem test_in : look (fun t => (t.conOut, t.getReg 0, t.getReg 7, t.cond, t.kbdIn))
    ((start 0x3000#16 [(0x3000#16, 0xF023#16)] []).feed [0x7A#8]) =
    some ([0x45#8, 0x6E#8, 0x74#8, 0x65#8, 0x72#8, 0x20#8, 0x61#8, 0x20#8, 0x63#8, 0x68#8, 0x61#8, 0x72#8, 0x61#8, 0x63#8,
      0x74#8, 0x65#8, 0x72#8, 0x3A#8, 0x20#8, 0x7A#8], 0x007A#16, 0x3001#16, 0b001#3, []) := by decide

/-- I2: IN without input waits, the prompt included. -/
theorem test_in_waits : look id (start 0x3000#16 [(0x3000#16, 0xF023#16)] []) =
    some (start 0x3000#16 [(0x3000#16, 0xF023#16)] []) := by decide

/-- Q2: the low byte always, the high byte if it is not zero. -/
theorem test_putsp : look (fun t => t.conOut)
    (start 0x3000#16 [(0x3000#16, 0xF024#16), (0x4000#16, 0x4100#16), (0x4001#16, 0x0042#16), (0x4002#16, 0x4443#16)]
      [(0, 0x4000#16)]) =
    some [0x00#8, 0x41#8, 0x42#8, 0x43#8, 0x44#8] := by decide

/-- H1. -/
theorem test_halt : look stop ((start 0x3002#16 [(0x3002#16, 0xF025#16)] [(7, 0x1234#16)]).setCond 0b100#3) =
    some (0x3003#16, 0x3003#16, false, [0x48#8, 0x41#8, 0x4C#8, 0x54#8], 0b100#3) := by decide

/-- H4. -/
theorem test_trap_unknown : look stop (start 0x3000#16 [(0x3000#16, 0xF026#16)] []) =
    some (0x3001#16, 0x3001#16, false, [0x48#8, 0x41#8, 0x4C#8, 0x54#8], 0b010#3) := by decide

/-- R3 of table 2.7: the increment wraps. -/
theorem test_rti : look stop (start 0xFFFF#16 [(0xFFFF#16, 0x8FFF#16)] []) =
    some (0x0000#16, 0x0000#16, false, [0x48#8, 0x41#8, 0x4C#8, 0x54#8], 0b010#3) := by decide

/-- R2 of table 2.7. -/
theorem test_res : look stop (start 0x3000#16 [(0x3000#16, 0xD123#16)] []) =
    some (0x3001#16, 0x3001#16, false, [0x48#8, 0x41#8, 0x4C#8, 0x54#8], 0b010#3) := by decide

/-- K13: the fetch at 0xFE00 polls first, and the word 0x8000 halts. -/
theorem test_fetch_polls :
    look stop ((start 0xFE00#16 [(0xFE00#16, 0x1021#16)] []).feed [0x41#8]) =
      some (0xFE01#16, 0xFE01#16, false, [0x48#8, 0x41#8, 0x4C#8, 0x54#8], 0b010#3) ∧
    look (kbd 0) ((start 0xFE00#16 [(0xFE00#16, 0x1021#16)] []).feed [0x41#8]) =
      some (0x0000#16, 0x8000#16, 0x0041#16, []) := by decide

/-- The image file bytes of program P1 (R223). -/
theorem test_image_of_bytes :
    imageOfBytes [0x30#8, 0x00#8, 0xE0#8, 0x02#8, 0xF0#8, 0x22#8] = some ⟨0x3000#16, [0xE002#16, 0xF022#16]⟩ := by decide

/-- An image that would pass 0xFFFF is no launch, one that ends there is (R224). -/
theorem test_launch_bound :
    launch [⟨0xFFFF#16, [0x0001#16, 0x0002#16]⟩] = none ∧ (launch [⟨0xFFFE#16, [0x0001#16, 0x0002#16]⟩]).isSome = true := by
  decide

/-! ## Witnesses: states and operands that meet the hypotheses of the obligations -/

/-- A GETC word at the reset PC. -/
def atGetc : State := State.reset.memWrite 0x3000#16 0xF020#16

/-- An IN word at the reset PC. -/
def atIn : State := State.reset.memWrite 0x3000#16 0xF023#16

/-- A HALT word at the reset PC. -/
def atHalt : State := State.reset.memWrite 0x3000#16 0xF025#16

/-- PC at the keyboard status word. -/
def atKbsr : State := State.reset.setPc 0xFE00#16

/-- The state after a halt from reset. -/
def halted : State := (State.reset.setPc 0x3001#16).trapEntry.haltSeq

theorem witness_DecodeOfEncodeIsIdentity :
    Instr.wellFormed (.trapUnknown 0x1F#8) = true ∧ Instr.wellFormed (.br 0b111#3 0x1FF#9) = true := by decide

theorem witness_IgnoredBitsDoNotChangeDecoding :
    0x14DC#16 &&& examinedBits (decode 0x14C4#16) = 0x14C4#16 &&& examinedBits (decode 0x14C4#16) := by decide

theorem witness_StepRunsDecodedInstruction :
    (State.reset.setPc 0xFDFF#16).run = true ∧ (State.reset.setPc 0xFDFF#16).pc ≠ 0xFE00#16 ∧
    decode ((State.reset.setPc 0xFDFF#16).mem.read (State.reset.setPc 0xFDFF#16).pc) = .br 0b000#3 0#9 := by decide

theorem witness_FetchFromKeyboardWordPolls :
    atKbsr.run = true ∧ atKbsr.pc = 0xFE00#16 ∧ atKbsr.kbdIn = [] ∧ (atKbsr.feed [0xFF#8]).kbdIn = 0xFF#8 :: [] := by decide

theorem witness_HaltedCoreKeepsAllState : halted.run = false := rfl

theorem witness_RunFallsExactlyAtHaltingWords :
    step halted = .next halted ∧ halted.run = false ∧ atHalt.run = true ∧ step atHalt = .next (halted.memWrite 0x3000#16 0xF025#16) ∧
    (halted.memWrite 0x3000#16 0xF025#16).run = false := ⟨rfl, rfl, rfl, rfl, rfl⟩

theorem witness_WaitingCoreChangesNothing :
    atGetc.run = true ∧ atGetc.kbdIn = [] ∧ atGetc.pc ≠ 0xFE00#16 ∧ decode (atGetc.mem.read atGetc.pc) = .getc ∧
    atIn.run = true ∧ atIn.kbdIn = [] ∧ atIn.pc ≠ 0xFE00#16 ∧ decode (atIn.mem.read atIn.pc) = .inOp := by decide

/-- The reset state meets the invariant. -/
theorem reset_inv : Inv State.reset := ⟨rfl, rfl, fun h => nomatch h⟩

/-- So does a halted state. -/
theorem halted_inv : Inv halted := ⟨rfl, rfl, fun _ => ⟨by decide, [], rfl⟩⟩

theorem witness_InvariantKeptByStep :
    Inv State.reset ∧ step State.reset = .next (State.reset.setPc 0x3001#16) ∧ Inv halted ∧ step halted = .next halted :=
  ⟨reset_inv, rfl, halted_inv, rfl⟩

theorem witness_HostMovesKeepInvariant :
    launch [⟨0xFFFF#16, [0x1234#16]⟩] = some (State.reset.memWrite 0xFFFF#16 0x1234#16) ∧ Inv State.reset := ⟨rfl, reset_inv⟩

theorem witness_ReachableRunsAreSafe :
    Reachable State.reset ∧ Reachable (halted.memWrite 0x3000#16 0xF025#16) ∧
    (halted.memWrite 0x3000#16 0xF025#16).run = false :=
  ⟨.launched (images := []) rfl,
   .stepped (s := atHalt) (.launched (images := [⟨0x3000#16, [0xF025#16]⟩]) rfl) rfl, rfl⟩

theorem witness_LaunchStartsAtFixedAddress :
    launch [⟨0x4000#16, [0x1234#16]⟩] = some (State.reset.memWrite 0x4000#16 0x1234#16) ∧
    (∀ im ∈ [(⟨0x4000#16, [0x1234#16]⟩ : Image)], ¬ covers im 0x3FFF#16) ∧
    (∀ im ∈ [(⟨0x4000#16, [0x1234#16]⟩ : Image)], ¬ covers im 0x4001#16) := by
  refine ⟨rfl, ?_, ?_⟩ <;> simp [covers]

theorem witness_ResetOfUnstatedState : launch [] = some State.reset := rfl

/-- The first image keeps its word at 0x4000, which the later image does not cover, and loses the one at 0x4001, which it does. -/
theorem witness_LaunchPlacesImages :
    launch ([] ++ ⟨0x4000#16, [0x0001#16, 0x0002#16]⟩ :: [⟨0x4001#16, [0x0003#16]⟩]) =
      some ((State.reset.memWrite 0x4000#16 0x0001#16).memWrite 0x4001#16 0x0003#16) ∧
    0 < ([0x0001#16, 0x0002#16] : List Word).length ∧
    (∀ l ∈ [(⟨0x4001#16, [0x0003#16]⟩ : Image)], ¬ covers l (0x4000#16 + BitVec.ofNat 16 0)) ∧
    covers ⟨0x4001#16, [0x0003#16]⟩ (0x4000#16 + BitVec.ofNat 16 1) ∧
    (launch [⟨0xFFFE#16, [0x0002#16, 0x0003#16]⟩]).isSome = true ∧
    launch [⟨0xFFFF#16, [0x0001#16, 0x0002#16]⟩] = none :=
  ⟨rfl, by decide, by simp [covers], by simp [covers], rfl, rfl⟩

theorem witness_CanonicalMemoriesAreEqual :
    Memory.wf [(0x0000, 0x0001#16), (0xFFFF, 0x0002#16)] = true ∧ Memory.wf [(0x10000, 0x0001#16)] = false ∧
    Memory.wf [(0x0001, 0x0000#16)] = false ∧ Memory.wf [(0x0001, 0x0001#16), (0x0001, 0x0002#16)] = false := by decide

theorem witness_KeyboardPollOnRead :
    (0xFDFF#16 : Addr) ≠ 0xFE00#16 ∧ (0xFE02#16 : Addr) ≠ 0xFE00#16 ∧ State.reset.kbdIn = [] ∧
    (State.reset.feed [0x41#8]).kbdIn = 0x41#8 :: [] := by decide

theorem witness_StoreThenReadRoundTrip :
    ((State.reset.memWrite 0xFE02#16 0x1234#16).memRead 0xFE02#16).1 = 0x1234#16 ∧
    ((State.reset.memWrite 0xFE00#16 0x1234#16).memRead 0xFE00#16).1 = 0x0000#16 := by decide

theorem witness_SecondPollOverwritesFirst :
    (State.reset.feed [0x41#8, 0x42#8]).kbdIn = 0x41#8 :: 0x42#8 :: [] := by decide

/-- Vector W2: `ST R0,#0` at 0x3000. -/
theorem witness_StoredWordIsFetchedNext :
    (State.reset.memWrite 0x3000#16 0x3000#16).run = true ∧ (State.reset.memWrite 0x3000#16 0x3000#16).pc ≠ 0xFE00#16 ∧
    (State.reset.memWrite 0x3000#16 0x3000#16).pc + 1#16 ≠ 0xFE00#16 ∧
    decode ((State.reset.memWrite 0x3000#16 0x3000#16).mem.read (State.reset.memWrite 0x3000#16 0x3000#16).pc) = .st 0 0#9 := by
  decide

theorem witness_ExtensionKeepsNumericValue :
    5 ∈ [5, 6, 9, 11] ∧ 11 ∈ [5, 6, 9, 11] ∧ (0x0010#16).getLsbD (5 - 1) = true ∧ (0x000F#16).getLsbD (5 - 1) = false := by decide

/-- Words that meet the decode clauses of the operate, control, load and store statements, one for each statement. -/
theorem witness_decode_clauses :
    0x1FC7#16 &&& 0xF020#16 = 0x1000#16 ∧ 0x1FFF#16 &&& 0xF020#16 = 0x1020#16 ∧ 0x5FC7#16 &&& 0xF020#16 = 0x5000#16 ∧
    0x5FFF#16 &&& 0xF020#16 = 0x5020#16 ∧ 0x9FFF#16 &&& 0xF000#16 = 0x9000#16 ∧ 0x0FFF#16 &&& 0xF000#16 = 0x0000#16 ∧
    0xCFFF#16 &&& 0xF000#16 = 0xC000#16 ∧ 0x4FFF#16 &&& 0xF800#16 = 0x4800#16 ∧ 0x47FF#16 &&& 0xF800#16 = 0x4000#16 ∧
    0x2FFF#16 &&& 0xF000#16 = 0x2000#16 ∧ 0xAFFF#16 &&& 0xF000#16 = 0xA000#16 ∧ 0x6FFF#16 &&& 0xF000#16 = 0x6000#16 ∧
    0xEFFF#16 &&& 0xF000#16 = 0xE000#16 ∧ 0x3FFF#16 &&& 0xF000#16 = 0x3000#16 ∧ 0xBFFF#16 &&& 0xF000#16 = 0xB000#16 ∧
    0x7FFF#16 &&& 0xF000#16 = 0x7000#16 := by decide

/-- Words that meet the decode clauses of the TRAP, RTI and RES statements, the boundary vectors included. -/
theorem witness_decode_clauses_trap :
    0xFF20#16 &&& 0xF0FF#16 = 0xF020#16 ∧ 0xF021#16 &&& 0xF0FF#16 = 0xF021#16 ∧ 0xFF22#16 &&& 0xF0FF#16 = 0xF022#16 ∧
    0xF023#16 &&& 0xF0FF#16 = 0xF023#16 ∧ 0xFF24#16 &&& 0xF0FF#16 = 0xF024#16 ∧ 0xFF25#16 &&& 0xF0FF#16 = 0xF025#16 ∧
    (0xFF1F#16 &&& 0xF000#16 = 0xF000#16 ∧ (0xFF1F#16).toNat % 256 < 0x20) ∧
    (0xF026#16 &&& 0xF000#16 = 0xF000#16 ∧ 0x25 < (0xF026#16).toNat % 256) ∧
    0x8FFF#16 &&& 0xF000#16 = 0x8000#16 ∧ 0xD123#16 &&& 0xF000#16 = 0xD000#16 := by decide

theorem witness_BranchOnCondition :
    0b010#3 &&& State.reset.cond ≠ 0b000#3 ∧ 0b101#3 &&& State.reset.cond = 0b000#3 ∧ condOneHot State.reset.cond = true := by
  decide

theorem witness_CallThroughRegister : (6 : RegIdx) ≠ 7 ∧ (7 : RegIdx) = 7 := by decide

theorem witness_GetcTakesOneByte :
    (State.reset.feed [0x00#8]).kbdIn = 0x00#8 :: [] ∧ (State.reset.feed [0xFF#8, 0x41#8]).kbdIn = 0xFF#8 :: [0x41#8] := by decide

theorem witness_InPromptsAndEchoes : (State.reset.feed [0x7A#8]).kbdIn = 0x7A#8 :: [] := by decide

/-- A string of one word that ends just below 0xFE00. -/
def oneChar : State := (State.reset.memWrite 0xFDFE#16 0x4148#16).setReg 0 0xFDFE#16

theorem witness_TerminatedStringIsPrinted :
    (∀ (k : Nat) (h : k < ([0x4148#16] : List Word).length),
      oneChar.mem.read (oneChar.getReg 0 + BitVec.ofNat 16 k) = ([0x4148#16] : List Word)[k] ∧
      ([0x4148#16] : List Word)[k] ≠ 0x0000#16 ∧ oneChar.getReg 0 + BitVec.ofNat 16 k ≠ 0xFE00#16) ∧
    oneChar.mem.read (oneChar.getReg 0 + BitVec.ofNat 16 ([0x4148#16] : List Word).length) = 0x0000#16 ∧
    oneChar.getReg 0 + BitVec.ofNat 16 ([0x4148#16] : List Word).length ≠ 0xFE00#16 := by decide

theorem witness_CondWrittenOnlyFromDestination :
    (∃ t, exec .halt State.reset = .next t ∧ condDest .halt = none) ∧
    (∃ t, exec (.lea 3 0#9) State.reset = .next t ∧ condDest (.lea 3 0#9) = some 3 ∧ needsInput (.lea 3 0#9) = false) ∧
    (∃ t, exec .getc (State.reset.feed [0x41#8]) = .next t ∧ condDest .getc = some 0 ∧
      (State.reset.feed [0x41#8]).kbdIn ≠ []) ∧
    ∃ t, exec .getc State.reset = .next t ∧ needsInput .getc = true ∧ State.reset.kbdIn = [] :=
  ⟨⟨_, rfl, rfl⟩, ⟨_, rfl, rfl, rfl⟩, ⟨_, rfl, rfl, by decide⟩, ⟨_, rfl, rfl, rfl⟩⟩

theorem witness_CondReadOnlyByBranch :
    (∀ nzp off, Instr.jmp 7 ≠ .br nzp off) ∧ ∃ t, exec (.jmp 7) State.reset = .next t := ⟨by simp, _, rfl⟩

theorem witness_PcAfterEachInstruction :
    (∃ t, exec (.jsrr 7) State.reset = .next t ∧ needsInput (.jsrr 7) = false) ∧
    ∃ t, exec .inOp State.reset = .next t ∧ needsInput .inOp = true ∧ State.reset.kbdIn = [] :=
  ⟨⟨_, rfl, rfl⟩, ⟨_, rfl, rfl, rfl⟩⟩

theorem witness_MemoryWrittenOnlyByStoresAndPolls :
    (∃ t, exec (.st 0 0x1FF#9) State.reset = .next t) ∧
    storesTo (.st 0 0x1FF#9) State.reset ≠ some 0x3000#16 ∧ (0x3000#16 : Addr) ≠ 0xFE00#16 ∧ (0x3000#16 : Addr) ≠ 0xFE02#16 ∧
    readsMemory (.st 0 0x1FF#9) = false := ⟨⟨_, rfl⟩, by decide, by decide, by decide, rfl⟩

theorem witness_InputIsTakenFromTheFront : ∃ t, step (atGetc.feed [0x41#8, 0x42#8]) = .next t ∧ t.kbdIn = [0x42#8] :=
  ⟨_, rfl, rfl⟩

theorem witness_OutputGrowsAndIsNeverRead : ∃ t, step atHalt = .next t ∧ t.conOut = haltBytes := ⟨_, rfl, rfl⟩

end Sys2Proof.Tests
end

section
/-! Extension of fields (R13), at every width up to a word's: the low bits with a mask of ones or zeros above, the
numeric value and its range, and that extending twice is extending once. -/

namespace Sys2Proof.Machine

variable {n : Nat}

/-- The ones from bit `n` up, the bits an extension from `n` bits fills. -/
theorem getLsbD_ones_shiftLeft (n : Nat) {i : Nat} (hi : i < 16) : (0xFFFF#16 <<< n).getLsbD i = !decide (i < n) := by
  have hones : (0xFFFF#16).getLsbD (i - n) = true := by
    rw [show 0xFFFF#16 = BitVec.allOnes 16 from rfl, BitVec.getLsbD_allOnes]
    exact decide_eq_true (by omega)
  rw [BitVec.getLsbD_shiftLeft, hones, decide_eq_true hi, Bool.true_and, Bool.and_true]

/-- Bit by bit, `sext` keeps the bits of the field and repeats its top bit above it. -/
theorem getLsbD_sext (hn : 0 < n) (v : Word) {i : Nat} (hi : i < 16) :
    (sext n v).getLsbD i = if i < n then v.getLsbD i else v.getLsbD (n - 1) := by
  rw [sext, sextField, BitVec.getLsbD_signExtend, BitVec.msb_eq_getLsbD_last]
  by_cases h : i < n
  · simp [hi, h]
  · simp [hi, h, hn]

/-- `sext` from the masks of R13: the low bits, with ones above them where the top bit of the field is 1. -/
theorem sext_eq_mask (hn : 0 < n) (v : Word) :
    sext n v = if v.getLsbD (n - 1) then (v &&& ~~~(0xFFFF#16 <<< n)) ||| (0xFFFF#16 <<< n)
      else v &&& ~~~(0xFFFF#16 <<< n) := by
  apply BitVec.eq_of_getLsbD_eq
  intro i hi
  rw [getLsbD_sext hn v hi]
  have hones := getLsbD_ones_shiftLeft n hi
  have hlow : (v &&& ~~~(0xFFFF#16 <<< n)).getLsbD i = (v.getLsbD i && decide (i < n)) := by
    rw [BitVec.getLsbD_and, BitVec.getLsbD_not, hones, Bool.not_not, decide_eq_true hi, Bool.true_and]
  cases v.getLsbD (n - 1) with
  | false =>
    rw [if_neg Bool.false_ne_true, hlow]
    by_cases h : i < n <;> simp [h]
  | true =>
    rw [if_pos rfl, BitVec.getLsbD_or, hlow, hones]
    by_cases h : i < n <;> simp [h]

/-- `sext` has the numeric value of the field (R13). -/
theorem toInt_sext (hn : n ≤ 16) (v : Word) : (sext n v).toInt = (v.setWidth n).toInt :=
  BitVec.toInt_signExtend_of_le hn

/-- The field of an extended word is the field it was extended from. -/
theorem setWidth_sext (hn : n ≤ 16) (v : Word) : (sext n v).setWidth n = v.setWidth n := by
  apply BitVec.eq_of_getLsbD_eq
  intro i hi
  rw [BitVec.getLsbD_setWidth, BitVec.getLsbD_setWidth, getLsbD_sext (by omega) v (by omega), if_pos hi]

theorem sext_sext (hn : n ≤ 16) (v : Word) : sext n (sext n v) = sext n v :=
  congrArg sextField (setWidth_sext hn v)

/-- `zext_16` keeps the value of a byte (R13). -/
theorem toNat_zextByte (b : Byte) : (zextByte b).toNat = b.toNat :=
  BitVec.toNat_setWidth_of_le (by decide)

/-- Settles O25: each of the four widths is between 1 and 16, where the lemmas above hold. -/
theorem extensionKeepsNumericValue : Obligations.ExtensionKeepsNumericValue := by
  refine ⟨fun n hn v => ?_, toNat_zextByte⟩
  have hwidth : 0 < n ∧ n ≤ 16 := (by decide : ∀ n ∈ [5, 6, 9, 11], 0 < n ∧ n ≤ 16) n hn
  obtain ⟨hpos, hle⟩ := hwidth
  have hval := toInt_sext hle v
  exact ⟨sext_eq_mask hpos v, hval, hval ▸ BitVec.le_toInt _, hval ▸ BitVec.toInt_lt, sext_sext hle v⟩

end Sys2Proof.Machine
end

section
/-! The condition code (R14): the model's code is that of the statements, when each of its three values is given, and
that every instruction that sets COND ends by writing a register and the code of the value written. -/

namespace Sys2Proof.Machine

open Sys2Proof.Claims

/-! ### The code of a word -/

/-- Bit 15 is 1 exactly from 0x8000 up (R14). -/
theorem getLsbD_fifteen_iff (v : Word) : v.getLsbD 15 = true ↔ 0x8000 ≤ v.toNat := by
  have hmsb : v.getLsbD 15 = v.msb := (BitVec.msb_eq_getLsbD_last v).symm
  rw [hmsb, BitVec.msb_eq_decide, decide_eq_true_iff]

/-- The two forms of R14, by bit 15 and by value, give one code. -/
@[simp] theorem condOf_eq_codeOf (v : Word) : condOf v = codeOf v := by
  have hzero : v = 0x0000#16 ↔ v.toNat = 0 := BitVec.toNat_inj.symm
  simp only [condOf, codeOf, hzero, getLsbD_fifteen_iff, condZro, condNeg, condPos]

/-- The three cases of `setcc` (R14), which exclude each other. -/
theorem condOf_cases (v : Word) :
    (v = 0x0000#16 ∧ v.getLsbD 15 = false ∧ condOf v = condZro) ∨
    (v ≠ 0x0000#16 ∧ v.getLsbD 15 = true ∧ condOf v = condNeg) ∨
    (v ≠ 0x0000#16 ∧ v.getLsbD 15 = false ∧ condOf v = condPos) := by
  by_cases h0 : v = 0x0000#16
  · subst h0; exact .inl (by decide)
  · cases h15 : v.getLsbD 15 with
    | false => exact .inr (.inr ⟨h0, rfl, by rw [condOf, if_neg h0, h15]; rfl⟩)
    | true => exact .inr (.inl ⟨h0, rfl, by rw [condOf, if_neg h0, h15]; rfl⟩)

theorem condOf_eq_zro_iff (v : Word) : condOf v = condZro ↔ v = 0x0000#16 := by
  obtain ⟨h0, _, hc⟩ | ⟨h0, _, hc⟩ | ⟨h0, _, hc⟩ := condOf_cases v <;> simp only [hc, h0] <;> decide

theorem condOf_eq_neg_iff (v : Word) : condOf v = condNeg ↔ v.getLsbD 15 = true := by
  obtain ⟨_, h15, hc⟩ | ⟨_, h15, hc⟩ | ⟨_, h15, hc⟩ := condOf_cases v <;> simp only [hc, h15] <;> decide

theorem condOf_eq_pos_iff (v : Word) : condOf v = condPos ↔ v ≠ 0x0000#16 ∧ v.getLsbD 15 = false := by
  obtain ⟨h0, h15, hc⟩ | ⟨h0, h15, hc⟩ | ⟨h0, h15, hc⟩ := condOf_cases v <;> simp only [hc, h0, h15, ne_eq] <;> decide

/-- `setcc` writes COND and nothing else (R14). -/
theorem setcc_eq (s : State) (v : Word) : s.setcc v = { s with cond := codeOf v } := by
  rw [← condOf_eq_codeOf]; rfl

/-! ### The instructions that set COND (R30) -/

/-- An instruction that sets COND and completes ends by writing its destination register and the code of the value written: GETC
and IN once a byte is pending, the others from every state (R14, R30, R116). -/
theorem exec_eq_setRegCC_of_condDest {i : Instr} {s t : State} {d : RegIdx} (hd : condDest i = some d)
    (hin : needsInput i = false ∨ s.kbdIn ≠ []) (h : exec i s = .next t) : ∃ (u : State) (v : Word), t = u.setRegCC d v := by
  cases i with
  | addReg | addImm | andReg | andImm | notOp | ld | ldi | ldr | lea =>
    cases hd
    exact ⟨_, _, (Host.Outcome.next.inj h).symm⟩
  | getc =>
    cases hd
    have hk : s.kbdIn ≠ [] := hin.resolve_left (by decide)
    obtain ⟨hnil, _⟩ | ⟨b, bs, _, hnext⟩ := execGetc_cases s
    · exact absurd hnil hk
    · exact ⟨_, _, Host.Outcome.next.inj (h.symm.trans hnext)⟩
  | inOp =>
    cases hd
    have hk : s.kbdIn ≠ [] := hin.resolve_left (by decide)
    obtain ⟨hnil, _⟩ | ⟨b, bs, _, hnext⟩ := execIn_cases s
    · exact absurd hnil hk
    · exact ⟨_, _, Host.Outcome.next.inj (h.symm.trans hnext)⟩
  | br | jmp | jsr | jsrr | st | sti | str | out | puts | putsp | halt | trapUnknown | rti | res => cases hd

/-- Settles O26: `setcc` case by case, and the end that every instruction that sets COND shares. -/
theorem setccGivesExactlyOneFlag : Obligations.SetccGivesExactlyOneFlag := by
  refine ⟨fun s v => ⟨setcc_eq s v, condOf_eq_zro_iff v, condOf_eq_neg_iff v, condOf_eq_pos_iff v⟩, ?_⟩
  intro i s t d hd hin h
  obtain ⟨u, v, rfl⟩ := exec_eq_setRegCC_of_condDest hd hin h
  rw [setRegCC_cond, setRegCC_getReg_self, condOf_eq_codeOf]

end Sys2Proof.Machine
end

section
/-! What one instruction can do, said once for every statement that speaks of all of them. `exec` only reads registers, PC,
memory and input and applies the shared operations of `Machine/Ops.lean`; so what these operations keep, of one state
(`KeptByOps`) or between two runs (`Simulation`), every instruction keeps, and every step. The second is the one case split
over the instructions; the first is its special case of two equal runs. -/

namespace Sys2Proof.Machine

open Sys2Proof.Claims

/-! ### Instructions with one outcome, whatever their constructor -/

/-- The four halting instructions all do what HALT does (R115, R166, R167, R180). -/
theorem exec_of_halts {i : Instr} (hi : halts i = true) (s : State) : exec i s = .next s.trapEntry.haltSeq := by
  cases i with
  | halt | trapUnknown | rti | res => rfl
  | br | addReg | addImm | ld | st | jsr | jsrr | andReg | andImm | ldr | str | notOp | ldi | sti | jmp | lea | getc | out
  | puts | inOp | putsp => cases hi

/-- An instruction that needs input waits without it (R116). -/
theorem exec_of_needsInput {i : Instr} (hi : needsInput i = true) {s : State} (hk : s.kbdIn = []) :
    exec i s = .next s.awaitInput := by
  cases i with
  | getc =>
    obtain ⟨_, h⟩ | ⟨b, bs, hcons, _⟩ := execGetc_cases s
    · exact h
    · cases hk.symm.trans hcons
  | inOp =>
    obtain ⟨_, h⟩ | ⟨b, bs, hcons, _⟩ := execIn_cases s
    · exact h
    · cases hk.symm.trans hcons
  | br | addReg | addImm | ld | st | jsr | jsrr | andReg | andImm | ldr | str | notOp | ldi | sti | jmp | lea | out | puts
  | putsp | halt | trapUnknown | rti | res => cases hi

/-- GETC with a pending byte (R161). -/
theorem exec_getc_cons {s : State} {b : Byte} {bs : List Byte} (hk : s.kbdIn = b :: bs) :
    exec .getc s = .next ((s.trapEntry.setKbdIn bs).setRegCC 0 (zextByte b)) := by
  obtain ⟨hnil, _⟩ | ⟨b', bs', hcons, h⟩ := execGetc_cases s
  · cases hk.symm.trans hnil
  · cases hk.symm.trans hcons; exact h

/-- IN with a pending byte (R164). -/
theorem exec_inOp_cons {s : State} {b : Byte} {bs : List Byte} (hk : s.kbdIn = b :: bs) :
    exec .inOp s = .next ((((s.trapEntry.conPut inPrompt).setKbdIn bs).conPut [b]).setRegCC 0 (zextByte b)) := by
  obtain ⟨hnil, _⟩ | ⟨b', bs', hcons, h⟩ := execIn_cases s
  · cases hk.symm.trans hnil
  · cases hk.symm.trans hcons; exact h

/-- A walk that ends gives the outcome of the string output (R163, R165). -/
theorem printString_of_walk {emit : Word → List Byte} {s t : State}
    (h : stringWalk emit (walkBound s) (s.getReg 0) s = some t) : printString emit s = .next t := by
  rw [printString, h]

/-! ### Two runs that differ in COND and CON_OUT alone -/

/-- A relation between states that differ at most in COND and CON_OUT, kept when an operation every instruction may use is
applied to both. Writing COND and clearing RUN, which only some instructions do, are hypotheses of `exec_simulates`. -/
structure Simulation (R : State → State → Prop) : Prop where
  agree : ∀ {s u : State}, R s u → ∃ c out, u = { s with cond := c, conOut := out }
  setReg : ∀ {s u : State} (r : RegIdx) (v : Word), R s u → R (s.setReg r v) (u.setReg r v)
  setPc : ∀ {s u : State} (v : Word), R s u → R (s.setPc v) (u.setPc v)
  memWrite : ∀ {s u : State} (a : Addr) (v : Word), R s u → R (s.memWrite a v) (u.memWrite a v)
  takeByte : ∀ {s u : State} {b : Byte} {bs : List Byte}, s.kbdIn = b :: bs → R s u → R (s.setKbdIn bs) (u.setKbdIn bs)
  conPut : ∀ {s u : State} (bs : List Byte), R s u → R (s.conPut bs) (u.conPut bs)

namespace Simulation

variable {R : State → State → Prop} {s u t : State}

theorem kbdIn_eq (hR : Simulation R) (hs : R s u) : u.kbdIn = s.kbdIn := by
  obtain ⟨c, out, rfl⟩ := hR.agree hs
  rfl

theorem run_eq (hR : Simulation R) (hs : R s u) : u.run = s.run := by
  obtain ⟨c, out, rfl⟩ := hR.agree hs
  rfl

theorem mem_eq (hR : Simulation R) (hs : R s u) : u.mem = s.mem := by
  obtain ⟨c, out, rfl⟩ := hR.agree hs
  rfl

theorem trapEntry (hR : Simulation R) (hs : R s u) : R s.trapEntry u.trapEntry := by
  obtain ⟨c, out, rfl⟩ := hR.agree hs
  exact hR.setReg 7 s.pc hs

/-- A read polls in both states or in neither, and takes the same byte. -/
theorem readEffect (hR : Simulation R) (a : Addr) (hs : R s u) : R (s.readEffect a) (u.readEffect a) := by
  by_cases ha : a = Config.kbsr
  · cases hk : s.kbdIn with
    | nil =>
      have hk' : u.kbdIn = [] := (hR.kbdIn_eq hs).trans hk
      simpa [State.readEffect, ha, kbdPoll_nil hk, kbdPoll_nil hk'] using hR.memWrite _ _ hs
    | cons b bs =>
      have hk' : u.kbdIn = b :: bs := (hR.kbdIn_eq hs).trans hk
      simpa [State.readEffect, ha, kbdPoll_cons hk, kbdPoll_cons hk'] using
        hR.memWrite _ _ (hR.memWrite _ _ (hR.takeByte hk hs))
  · simpa [State.readEffect, ha] using hs

/-- A read gives the same word in both states. -/
theorem memRead_fst_eq (hR : Simulation R) (a : Addr) (hs : R s u) : (u.memRead a).1 = (s.memRead a).1 :=
  congrArg (·.read a) (hR.mem_eq (hR.readEffect a hs))

theorem loadReg (hR : Simulation R) (hcc : ∀ {s u : State} (v : Word), R s u → R (s.setcc v) (u.setcc v)) (d : RegIdx)
    (a : Addr) (hs : R s u) : R (s.loadReg d a) (u.loadReg d a) := by
  rw [State.loadReg, State.loadReg, hR.memRead_fst_eq a hs]
  exact hcc _ (hR.setReg d _ (hR.readEffect a hs))

/-- The pointers of LDI and STI are the same word. -/
theorem indirect (hR : Simulation R) (off : BitVec 9) (hs : R s u) :
    (u.indirect off).1 = (s.indirect off).1 ∧ R (s.indirect off).2 (u.indirect off).2 := by
  obtain ⟨c, out, rfl⟩ := hR.agree hs
  exact ⟨hR.memRead_fst_eq (s.pcRel off) hs, hR.readEffect (s.pcRel off) hs⟩

/-- The words fetched are the same. -/
theorem fetch (hR : Simulation R) (hs : R s u) : u.fetch.1 = s.fetch.1 ∧ R s.fetch.2 u.fetch.2 := by
  obtain ⟨c, out, rfl⟩ := hR.agree hs
  exact ⟨hR.memRead_fst_eq s.pc hs, hR.setPc _ (hR.readEffect s.pc hs)⟩

/-- The walks read the same words, so they end together. -/
theorem stringWalk (hR : Simulation R) {emit : Word → List Byte} {n : Nat} {a : Addr}
    (h : Machine.stringWalk emit n a s = some t) (hs : R s u) :
    ∃ t', Machine.stringWalk emit n a u = some t' ∧ R t t' := by
  induction n generalizing a s u with
  | zero => cases h
  | succ n ih =>
    have hread := hR.readEffect a hs
    rw [stringWalk_succ] at h ⊢
    rw [hR.mem_eq hread]
    split at h
    next hzero =>
      obtain rfl := Option.some.inj h
      exact ⟨_, if_pos hzero, hread⟩
    next hzero =>
      rw [if_neg hzero]
      exact ih h (hR.conPut _ hread)

theorem printString (hR : Simulation R) {emit : Word → List Byte} (h : Machine.printString emit s = .next t) (hs : R s u) :
    ∃ t', Machine.printString emit u = .next t' ∧ R t t' := by
  obtain ⟨t₀, hnext, hwalk⟩ := printString_next emit s
  obtain rfl := Host.Outcome.next.inj (hnext.symm.trans h)
  obtain ⟨t', hwalk', ht⟩ := hR.stringWalk hwalk hs
  obtain ⟨c, out, rfl⟩ := hR.agree hs
  exact ⟨t', printString_of_walk hwalk', ht⟩

/-- From related states an instruction goes to related states. BR reads COND, so for it the two must agree there. -/
theorem exec_simulates (hR : Simulation R) {i : Instr} (hbr : ∀ nzp off, i = .br nzp off → u.cond = s.cond)
    (hcc : condDest i ≠ none → ∀ {s u : State} (v : Word), R s u → R (s.setcc v) (u.setcc v))
    (hrun : halts i = true → ∀ {s u : State}, R s u → R (s.setRun false) (u.setRun false))
    (h : exec i s = .next t) (hs : R s u) : ∃ t', exec i u = .next t' ∧ R t t' := by
  obtain ⟨c, out, rfl⟩ := hR.agree hs
  cases i with
  | br nzp off =>
    obtain rfl : c = s.cond := hbr nzp off rfl
    obtain rfl := Host.Outcome.next.inj h
    refine ⟨_, rfl, ?_⟩
    change R (if condTest nzp s.cond then _ else _) (if condTest nzp s.cond then _ else _)
    cases condTest nzp s.cond with
    | true => exact hR.setPc _ hs
    | false => exact hs
  | addReg | addImm | andReg | andImm | notOp | lea =>
    obtain rfl := Host.Outcome.next.inj h
    exact ⟨_, rfl, hcc nofun _ (hR.setReg _ _ hs)⟩
  | ld | ldr =>
    obtain rfl := Host.Outcome.next.inj h
    exact ⟨_, rfl, hR.loadReg (hcc nofun) _ _ hs⟩
  | ldi dr off =>
    obtain rfl := Host.Outcome.next.inj h
    obtain ⟨hptr, hread⟩ := hR.indirect off hs
    refine ⟨_, rfl, ?_⟩
    rw [hptr]
    exact hR.loadReg (hcc nofun) dr _ hread
  | st | str =>
    obtain rfl := Host.Outcome.next.inj h
    exact ⟨_, rfl, hR.memWrite _ _ hs⟩
  | sti sr off =>
    obtain rfl := Host.Outcome.next.inj h
    obtain ⟨hptr, hread⟩ := hR.indirect off hs
    refine ⟨_, rfl, ?_⟩
    rw [hptr]
    exact hR.memWrite _ _ hread
  | jmp =>
    obtain rfl := Host.Outcome.next.inj h
    exact ⟨_, rfl, hR.setPc _ hs⟩
  | jsr | jsrr =>
    obtain rfl := Host.Outcome.next.inj h
    exact ⟨_, rfl, hR.setPc _ (hR.trapEntry hs)⟩
  | out =>
    obtain rfl := Host.Outcome.next.inj h
    exact ⟨_, rfl, hR.conPut _ (hR.trapEntry hs)⟩
  | puts | putsp => exact hR.printString h (hR.trapEntry hs)
  | getc =>
    obtain ⟨hk, hwait⟩ | ⟨b, bs, hk, hnext⟩ := execGetc_cases s
    · obtain rfl := Host.Outcome.next.inj (hwait.symm.trans h)
      exact ⟨_, exec_of_needsInput rfl hk, hR.setPc _ hs⟩
    · obtain rfl := Host.Outcome.next.inj (hnext.symm.trans h)
      exact ⟨_, exec_getc_cons hk, hcc nofun _ (hR.setReg _ _ (hR.takeByte hk (hR.trapEntry hs)))⟩
  | inOp =>
    obtain ⟨hk, hwait⟩ | ⟨b, bs, hk, hnext⟩ := execIn_cases s
    · obtain rfl := Host.Outcome.next.inj (hwait.symm.trans h)
      exact ⟨_, exec_of_needsInput rfl hk, hR.setPc _ hs⟩
    · obtain rfl := Host.Outcome.next.inj (hnext.symm.trans h)
      have htaken := hR.takeByte (s := s.trapEntry.conPut inPrompt) hk (hR.conPut inPrompt (hR.trapEntry hs))
      exact ⟨_, exec_inOp_cons hk, hcc nofun _ (hR.setReg _ _ (hR.conPut _ htaken))⟩
  | halt | trapUnknown | rti | res =>
    obtain rfl := Host.Outcome.next.inj h
    exact ⟨_, rfl, hrun rfl (hR.conPut _ (hR.trapEntry hs))⟩

/-- And so does a step, with the fetch before the instruction. -/
theorem step_simulates (hR : Simulation R) (hbr : ∀ {s u : State}, R s u → u.cond = s.cond)
    (hcc : ∀ {s u : State} (v : Word), R s u → R (s.setcc v) (u.setcc v))
    (hrun : halts (decode (s.memRead s.pc).1) = true → ∀ {s u : State}, R s u → R (s.setRun false) (u.setRun false))
    (h : step s = .next t) (hs : R s u) : ∃ t', step u = .next t' ∧ R t t' := by
  have hru : u.run = s.run := hR.run_eq hs
  by_cases hr : s.run = true
  · obtain ⟨hword, hfetch⟩ := hR.fetch hs
    rw [step_of_run hr] at h
    rw [step_of_run (hru.trans hr), hword]
    exact hR.exec_simulates (fun _ _ _ => hbr hfetch) (fun _ => hcc) hrun h hfetch
  · have hr := Bool.eq_false_of_not_eq_true hr
    obtain rfl := Host.Outcome.next.inj ((step_of_halted hr).symm.trans h)
    exact ⟨u, step_of_halted (hru.trans hr), hs⟩

end Simulation

/-! ### One state: what the shared operations keep -/

/-- A property of states that the operations every instruction may use keep. A field left out keeps it by definition. -/
structure KeptByOps (P : State → Prop) : Prop where
  setReg : ∀ s r v, P s → P (s.setReg r v) := by exact fun _ _ _ h => h
  setPc : ∀ s v, P s → P (s.setPc v) := by exact fun _ _ h => h
  memWrite : ∀ s a v, P s → P (s.memWrite a v) := by exact fun _ _ _ h => h
  takeByte : ∀ s b bs, s.kbdIn = b :: bs → P s → P (s.setKbdIn bs) := by exact fun _ _ _ _ h => h
  conPut : ∀ s bs, P s → P (s.conPut bs) := by exact fun _ _ h => h

namespace KeptByOps

variable {P : State → Prop} {s t : State}

/-- One run is two equal runs. -/
theorem simulation (hP : KeptByOps P) : Simulation (fun s u => u = s ∧ P s) where
  agree := fun ⟨e, _⟩ => ⟨_, _, e⟩
  setReg := fun r v ⟨e, h⟩ => ⟨congrArg (State.setReg r v) e, hP.setReg _ r v h⟩
  setPc := fun v ⟨e, h⟩ => ⟨congrArg (State.setPc v) e, hP.setPc _ v h⟩
  memWrite := fun a v ⟨e, h⟩ => ⟨congrArg (State.memWrite a v) e, hP.memWrite _ a v h⟩
  takeByte := fun hk ⟨e, h⟩ => ⟨congrArg (State.setKbdIn _) e, hP.takeByte _ _ _ hk h⟩
  conPut := fun bs ⟨e, h⟩ => ⟨congrArg (State.conPut bs) e, hP.conPut _ bs h⟩

/-- What the operations keep, an instruction keeps, if `setcc` and the clearing of RUN keep it where the instruction does them. -/
theorem exec_keeps (hP : KeptByOps P) {i : Instr} (hcc : condDest i ≠ none → ∀ s v, P s → P (s.setcc v))
    (hrun : halts i = true → ∀ s, P s → P (s.setRun false)) (h : exec i s = .next t) (hs : P s) : P t :=
  have ⟨_, _, _, ht⟩ := hP.simulation.exec_simulates (fun _ _ _ => rfl)
    (fun hd _ _ v ⟨e, hs⟩ => ⟨congrArg (State.setcc v) e, hcc hd _ v hs⟩)
    (fun hi _ _ ⟨e, hs⟩ => ⟨congrArg (State.setRun false) e, hrun hi _ hs⟩) h ⟨rfl, hs⟩
  ht

/-- And a step keeps it. -/
theorem step_keeps (hP : KeptByOps P) (hcc : ∀ s v, P s → P (s.setcc v))
    (hrun : halts (decode (s.memRead s.pc).1) = true → ∀ s, P s → P (s.setRun false)) (h : step s = .next t) (hs : P s) :
    P t :=
  have ⟨_, _, _, ht⟩ := hP.simulation.step_simulates (fun ⟨e, _⟩ => congrArg State.cond e)
    (fun v ⟨e, hs⟩ => ⟨congrArg (State.setcc v) e, hcc _ v hs⟩)
    (fun hi _ _ ⟨e, hs⟩ => ⟨congrArg (State.setRun false) e, hrun hi _ hs⟩) h ⟨rfl, hs⟩
  ht

end KeptByOps

end Sys2Proof.Machine
end

section
/-! The state's registers over a step (`spec/10_state.md`): RUN and the invariant (R31, R32), the console (R37, R38), COND
(R30) and PC (R27). -/

namespace Sys2Proof.Machine

open Sys2Proof.Claims

/-! ### Halting and the invariant (R31, R32, R115) -/

/-- What a step at a halting word leaves. -/
theorem step_of_halts {s : State} (hr : s.run = true) (hi : halts (decode (s.memRead s.pc).1) = true) :
    step s = .next s.fetch.2.trapEntry.haltSeq := by
  rw [step_of_run hr]
  exact exec_of_halts hi _

/-- A step at any other word leaves RUN at 1. -/
theorem step_run_of_not_halts {s t : State} (hr : s.run = true) (hi : halts (decode (s.memRead s.pc).1) = false)
    (h : step s = .next t) : t.run = true :=
  KeptByOps.step_keeps (P := fun u => u.run = true) {} (fun _ _ h => h) (fun hi' => nomatch hi.symm.trans hi') h hr

/-- Settles O8: the step at a halting word, and at any other. -/
theorem runFallsExactlyAtHaltingWords : Obligations.RunFallsExactlyAtHaltingWords := by
  intro s t h
  cases hr : s.run with
  | false =>
    obtain rfl := Host.Outcome.next.inj ((step_of_halted hr).symm.trans h)
    exact ⟨fun _ => hr, nofun, nofun⟩
  | true =>
    cases hi : halts (decode (s.memRead s.pc).1) with
    | true =>
      obtain rfl := Host.Outcome.next.inj ((step_of_halts hr hi).symm.trans h)
      refine ⟨nofun, fun _ => by simp, fun _ _ => ⟨rfl, ?_, ?_⟩⟩
      · exact trapEntry_getReg_seven s.fetch.2
      · rw [haltSeq_conOut, trapEntry_conOut, fetch_snd, setPc_conOut, readEffect_conOut]; rfl
    | false =>
      have hrun := step_run_of_not_halts hr hi h
      simp [hrun]

/-- `setcc` leaves one of the three codes (R14, R31). -/
theorem condOneHot_condOf (v : Word) : condOneHot (condOf v) = true := by
  obtain ⟨_, _, h⟩ | ⟨_, _, h⟩ | ⟨_, _, h⟩ := condOf_cases v <;> rw [h] <;> rfl

/-- Settles O12: memory and COND by what the operations keep, a halt by what the step that halts leaves. -/
theorem invariantKeptByStep : Obligations.InvariantKeptByStep := by
  intro s t ⟨hmem, hcond, hhalted⟩ h
  refine ⟨?_, ?_, fun ht => ?_⟩
  · exact KeptByOps.step_keeps (P := fun u => u.mem.wf = true) { memWrite := fun _ a v hu => wf_write a v hu }
      (fun _ _ hu => hu) (fun _ _ hu => hu) h hmem
  · exact KeptByOps.step_keeps (P := fun u => condOneHot u.cond = true) {}
      (fun _ v _ => condOneHot_condOf v) (fun _ _ hu => hu) h hcond
  · cases hr : s.run with
    | false =>
      obtain rfl := Host.Outcome.next.inj ((step_of_halted hr).symm.trans h)
      exact hhalted hr
    | true =>
      obtain ⟨hpc, hlink, hout⟩ := (runFallsExactlyAtHaltingWords s t h).2.2 hr ht
      exact ⟨hlink.trans hpc.symm, s.conOut, hout.symm⟩

/-- A run of one step more is the run from the state that step answers. -/
theorem run_succ_of_next {M : Host.Core} {s t : M.State} (h : M.step s = .next t) (k : Nat) :
    M.run (k + 1) s = M.run k t := by
  rw [Host.Core.run, h]

/-- Settles O7, by induction on the number of steps. -/
theorem haltedCoreKeepsAllState : Obligations.HaltedCoreKeepsAllState := by
  intro s k hr
  induction k with
  | zero => rfl
  | succ k ih => exact (run_succ_of_next (M := Sys2Proof.core) (step_of_halted hr) k).trans ih

/-- Settles O11, field by field. -/
theorem invariantHoldsAtReset : Obligations.InvariantHoldsAtReset where
  memory := wf_nil
  oneHot := rfl
  halted := nofun

/-! ### The console (R37, R38) -/

/-- Settles O56: each operation leaves a suffix of the input. -/
theorem inputIsTakenFromTheFront : Obligations.InputIsTakenFromTheFront := by
  intro s t h
  have hP : KeptByOps (fun u => u.kbdIn <:+ s.kbdIn) :=
    { takeByte := fun _ b bs hk hu => (List.suffix_cons b bs).trans (hk ▸ hu) }
  exact hP.step_keeps (fun _ _ hu => hu) (fun _ _ hu => hu) h List.suffix_rfl

/-- Two runs with the same bytes output after `base` and after `out`. -/
def SameOutputAfter (base out : List Byte) (s u : State) : Prop :=
  ∃ added, s.conOut = base ++ added ∧ u = { s with conOut := out ++ added }

theorem sameOutputAfter_simulation (base out : List Byte) : Simulation (SameOutputAfter base out) where
  agree := fun ⟨_, _, e⟩ => ⟨_, _, e⟩
  setReg := fun r v ⟨added, ho, e⟩ => ⟨added, ho, congrArg (State.setReg r v) e⟩
  setPc := fun v ⟨added, ho, e⟩ => ⟨added, ho, congrArg (State.setPc v) e⟩
  memWrite := fun a v ⟨added, ho, e⟩ => ⟨added, ho, congrArg (State.memWrite a v) e⟩
  takeByte := fun _ ⟨added, ho, e⟩ => ⟨added, ho, congrArg (State.setKbdIn _) e⟩
  conPut := fun {s u} bs ⟨added, ho, e⟩ => ⟨added ++ bs, by simp [ho], by simp [e, State.conPut]⟩

/-- Settles O57: the run with another output is simulated. -/
theorem outputGrowsAndIsNeverRead : Obligations.OutputGrowsAndIsNeverRead := by
  intro s t out h
  have hs : SameOutputAfter s.conOut out s { s with conOut := out } := ⟨[], by simp⟩
  obtain ⟨_, hstep, added, hadded, rfl⟩ := (sameOutputAfter_simulation s.conOut out).step_simulates
    (fun ⟨_, _, e⟩ => e ▸ rfl) (fun v ⟨added, ho, e⟩ => ⟨added, ho, congrArg (State.setcc v) e⟩)
    (fun _ _ _ ⟨added, ho, e⟩ => ⟨added, ho, congrArg (State.setRun false) e⟩) h hs
  exact ⟨added, hadded, hstep⟩

/-! ### COND (R30) -/

/-- An instruction without a destination that sets COND leaves COND alone. -/
theorem exec_cond_of_condDest_none {i : Instr} {s t : State} (hd : condDest i = none) (h : exec i s = .next t) :
    t.cond = s.cond :=
  KeptByOps.exec_keeps (P := fun u => u.cond = s.cond) {} (fun hd' => absurd hd hd') (fun _ _ hu => hu) h rfl

/-- Settles O52: without a destination COND is kept; with one the instruction ends by setting it, or it waits. -/
theorem condWrittenOnlyFromDestination : Obligations.CondWrittenOnlyFromDestination := by
  intro i s t h
  refine ⟨fun hd => exec_cond_of_condDest_none hd h, fun d hd => ⟨fun hin => ?_, fun ⟨hi, hk⟩ => ?_⟩⟩
  · obtain ⟨u, v, rfl⟩ := exec_eq_setRegCC_of_condDest hd hin h
    rw [setRegCC_cond, setRegCC_getReg_self, condOf_eq_codeOf]
  · obtain rfl := Host.Outcome.next.inj ((exec_of_needsInput hi hk).symm.trans h)
    rfl

/-- Two runs that differ in COND alone: both have set it to the same, or neither has set it since it was `c₀` and `c`. -/
def SameButCond (c₀ c : BitVec 3) (s u : State) : Prop :=
  ∃ c', u = { s with cond := c' } ∧ (c' = s.cond ∨ (s.cond = c₀ ∧ c' = c))

theorem sameButCond_simulation (c₀ c : BitVec 3) : Simulation (SameButCond c₀ c) where
  agree := fun ⟨_, e, _⟩ => ⟨_, _, e⟩
  setReg := fun r v ⟨c', e, hc⟩ => ⟨c', congrArg (State.setReg r v) e, hc⟩
  setPc := fun v ⟨c', e, hc⟩ => ⟨c', congrArg (State.setPc v) e, hc⟩
  memWrite := fun a v ⟨c', e, hc⟩ => ⟨c', congrArg (State.memWrite a v) e, hc⟩
  takeByte := fun _ ⟨c', e, hc⟩ => ⟨c', congrArg (State.setKbdIn _) e, hc⟩
  conPut := fun bs ⟨c', e, hc⟩ => ⟨c', congrArg (State.conPut bs) e, hc⟩

/-- Settles O53: the run under another COND is simulated. -/
theorem condReadOnlyByBranch : Obligations.CondReadOnlyByBranch := by
  intro i s t c hbr h
  have hs : SameButCond s.cond c s { s with cond := c } := ⟨c, rfl, .inr ⟨rfl, rfl⟩⟩
  obtain ⟨_, hexec, c', rfl, hc'⟩ := (sameButCond_simulation s.cond c).exec_simulates
    (fun nzp off e => absurd e (hbr nzp off)) (fun _ _ _ v ⟨_, e, _⟩ => ⟨condOf v, by rw [e]; rfl, .inl rfl⟩)
    (fun _ _ _ ⟨c', e, hc⟩ => ⟨c', congrArg (State.setRun false) e, hc⟩) h hs
  exact ⟨c', hexec, hc'⟩

/-! ### PC (R27) -/

/-- The target of a PC-relative instruction in the words of R13. -/
theorem pcRel_eq_signed {n : Nat} (off : BitVec n) (s : State) : s.pcRel off = s.pc + signed off := rfl

/-- Where an instruction that is enabled leaves PC (R27): at its target, or at the incremented PC it was given. -/
theorem exec_pc {i : Instr} {s t : State} (hin : needsInput i = false ∨ s.kbdIn ≠ []) (h : exec i s = .next t) :
    t.pc = pcAfter i s := by
  cases i with
  | br nzp off =>
    obtain rfl := Host.Outcome.next.inj h
    by_cases hz : nzp &&& s.cond = 0b000#3 <;> simp [condTest, pcAfter, hz, pcRel_eq_signed]
  | jmp | jsr | addReg | addImm | andReg | andImm | notOp | lea | st | str | out | halt | trapUnknown | rti | res =>
    obtain rfl := Host.Outcome.next.inj h
    rfl
  | jsrr base =>
    obtain rfl := Host.Outcome.next.inj h
    by_cases hb : base = 7 <;> simp [pcAfter, hb]
  | ld | ldr | ldi | sti =>
    obtain rfl := Host.Outcome.next.inj h
    simp [State.loadReg, State.indirect, pcAfter]
  | puts | putsp =>
    obtain ⟨_, hpc, _⟩ := printString_frame h
    exact hpc
  | getc =>
    obtain ⟨b, bs, hk⟩ := List.exists_cons_of_ne_nil (hin.resolve_left nofun)
    obtain rfl := Host.Outcome.next.inj ((exec_getc_cons hk).symm.trans h)
    rfl
  | inOp =>
    obtain ⟨b, bs, hk⟩ := List.exists_cons_of_ne_nil (hin.resolve_left nofun)
    obtain rfl := Host.Outcome.next.inj ((exec_inOp_cons hk).symm.trans h)
    rfl

/-- Settles O54: an enabled instruction by its constructor, a waiting one by the increment it takes back. -/
theorem pcAfterEachInstruction : Obligations.PcAfterEachInstruction := by
  intro i s t h
  refine ⟨fun hin => exec_pc hin h, fun ⟨hi, hk⟩ => ?_⟩
  obtain rfl := Host.Outcome.next.inj ((exec_of_needsInput hi hk).symm.trans h)
  exact BitVec.sub_add_cancel s.pc 1#16

end Sys2Proof.Machine
end

section
/-! Reset and launch (R40 to R45, R222): what loading images leaves of a state, whole and word by word. -/

namespace Sys2Proof.Machine

open Sys2Proof.Claims

/-- Loading one image writes memory and nothing else. -/
theorem loadWords_eq (a : Addr) (ws : List Word) (s : State) : ∃ m, s.loadWords a ws = { s with mem := m } := by
  obtain ⟨hregs, hpc, hcond, hrun, hkbd, hout, _⟩ := loadWords_frame ws a s
  exact ⟨(s.loadWords a ws).mem, state_ext (fun q => congrArg (·.get q) hregs) hpc hcond hrun rfl hkbd hout⟩

/-- The images of a launch, loaded in order (R222). -/
def State.loadImages (images : List Image) (s : State) : State :=
  images.foldl (fun s im => s.loadWords im.origin im.words) s

theorem loadImages_cons (im : Image) (images : List Image) (s : State) :
    s.loadImages (im :: images) = (s.loadWords im.origin im.words).loadImages images := rfl

/-- A launch loads images that fit into the reset state (R222, R224). -/
theorem launch_eq_some_iff {images : List Image} {s : State} :
    launch images = some s ↔ (∀ im ∈ images, im.fits = true) ∧ State.reset.loadImages images = s := by
  rw [launch, Option.ite_none_right_eq_some, List.all_eq_true, Option.some_inj]
  rfl

/-- Loading images writes memory and nothing else. -/
theorem loadImages_eq (images : List Image) (s : State) : ∃ m, s.loadImages images = { s with mem := m } := by
  induction images generalizing s with
  | nil => exact ⟨s.mem, rfl⟩
  | cons im images ih =>
    obtain ⟨m, hm⟩ := loadWords_eq im.origin im.words s
    obtain ⟨m', hm'⟩ := ih { s with mem := m }
    exact ⟨m', by rw [loadImages_cons, hm, hm']⟩

/-- A launch state is the reset state with another memory. -/
theorem launch_frame {images : List Image} {s : State} (h : launch images = some s) :
    ∃ m, s = { State.reset with mem := m } := by
  obtain ⟨_, rfl⟩ := launch_eq_some_iff.1 h
  exact loadImages_eq images State.reset

/-- Images that fit leave every word that none of them covers as it was (R223). -/
theorem loadImages_read_of_not_covers {images : List Image} {a : Addr} (hfit : ∀ im ∈ images, im.fits = true)
    (ha : ∀ im ∈ images, ¬ covers im a) (s : State) : (s.loadImages images).mem.read a = s.mem.read a := by
  induction images generalizing s with
  | nil => rfl
  | cons im images ih =>
    obtain ⟨hfit₁, hfit⟩ := List.forall_mem_cons.1 hfit
    obtain ⟨ha₁, ha⟩ := List.forall_mem_cons.1 ha
    have hbound : im.origin.toNat + im.words.length ≤ 65536 := of_decide_eq_true hfit₁
    have houtside : a.toNat < im.origin.toNat ∨ im.origin.toNat + im.words.length ≤ a.toNat := by
      simp only [covers] at ha₁
      omega
    rw [loadImages_cons, ih hfit ha, loadWords_read_outside _ _ _ _ hbound houtside]

/-- Settles O15: loading writes only memory, and only where an image is. -/
theorem launchStartsAtFixedAddress : Obligations.LaunchStartsAtFixedAddress := by
  refine ⟨rfl, rfl, fun _ => rfl, fun images s h => ?_⟩
  obtain ⟨hfit, hload⟩ := launch_eq_some_iff.1 h
  obtain ⟨m, hm⟩ := launch_frame h
  refine ⟨hm ▸ rfl, hm ▸ rfl, fun a ha => ?_⟩
  rw [← hload, loadImages_read_of_not_covers hfit ha]
  rfl

/-- Every register of the reset state is zero (R42). -/
theorem reset_getReg (r : RegIdx) : State.reset.getReg r = 0x0000#16 := by
  revert r
  decide

/-- Settles O16: loading leaves all but memory as at reset. -/
theorem resetOfUnstatedState : Obligations.ResetOfUnstatedState := by
  intro images s h
  obtain ⟨m, rfl⟩ := launch_frame h
  exact ⟨reset_getReg, rfl, rfl, rfl⟩

end Sys2Proof.Machine
end

section
/-! Memory as the reading of its addresses (R50, R56), and the core's reads of it through the keyboard poll (R55, R57): what a
poll leaves, word by word. -/

namespace Sys2Proof.Machine

open Sys2Proof.Claims

/-! ### The canonical form (R50) -/

/-- A word that does not read as unlisted is listed, at its address. -/
theorem mem_of_read_ne_zero {m : Memory} {a : Addr} (h : m.read a ≠ 0x0000#16) : (a.toNat, m.read a) ∈ m := by
  induction m with
  | nil => exact absurd rfl h
  | cons c m ih =>
    rw [read_cons] at h ⊢
    split at h
    next hc => rw [if_pos hc, ← hc]; exact List.mem_cons_self
    next hc => rw [if_neg hc]; exact List.mem_cons_of_mem c (ih h)

/-- In rising order of address a listed word is the one read at its address: no earlier entry has that address. -/
theorem read_of_mem {m : Memory} (hm : m.Pairwise fun c d => c.1 < d.1) {a : Addr} {v : Word} (h : (a.toNat, v) ∈ m) :
    m.read a = v := by
  induction m with
  | nil => cases h
  | cons c m ih =>
    obtain ⟨hlt, hm⟩ := List.pairwise_cons.1 hm
    rw [read_cons]
    obtain rfl | h := List.mem_cons.1 h
    · exact if_pos rfl
    · rw [if_neg (hlt _ h).ne]
      exact ih hm h

/-- The entries of a canonical memory are exactly the words that read other than zero. -/
theorem mem_iff_read {m : Memory} (hm : m.wf = true) {c : Cell} :
    c ∈ m ↔ ∃ a : Addr, c = (a.toNat, m.read a) ∧ m.read a ≠ 0x0000#16 := by
  obtain ⟨hsorted, hcell⟩ := wf_iff.1 hm
  constructor
  · intro hc
    obtain ⟨hlt, hne⟩ := hcell c hc
    have hread : m.read (BitVec.ofNatLT c.1 hlt) = c.2 := read_of_mem hsorted hc
    exact ⟨BitVec.ofNatLT c.1 hlt, by rw [hread]; rfl, by rwa [hread]⟩
  · rintro ⟨a, rfl, hne⟩
    exact mem_of_read_ne_zero hne

/-- Settles O20: reads determine the entries, and the rising order their sequence. -/
theorem canonicalMemoriesAreEqual : Obligations.CanonicalMemoriesAreEqual := by
  intro m n hm hn hread
  have hcells : ∀ c, c ∈ m ↔ c ∈ n := fun c => by simp only [mem_iff_read hm, mem_iff_read hn, hread]
  have hirrefl : Std.Irrefl fun c d : Cell => c.1 < d.1 := ⟨fun c => lt_irrefl c.1⟩
  have hantisymm : Std.Antisymm fun c d : Cell => c.1 < d.1 := ⟨fun _ _ hcd hdc => absurd hdc hcd.asymm⟩
  exact (wf_iff.1 hm).1.eq_of_mem_iff (wf_iff.1 hn).1 hcells

/-! ### Stores (R56, R61, R71) -/

/-- Settles O19: the word by the law of `Memory.write`, every other field as `memWrite` leaves it. -/
theorem memWriteStoresAndNothingElse : Obligations.MemWriteStoresAndNothingElse := fun s a v =>
  ⟨fun b => read_write s.mem a b v, ⟨memWrite_getReg s a v, rfl, rfl, rfl, rfl⟩, rfl⟩

/-- Offset 0 names the word after the instruction: the one at the incremented PC (R140). -/
theorem pcRel_zero (s : State) : s.pcRel 0#9 = s.pc := BitVec.add_zero s.pc

/-- The step at ST SR,#0 in plain memory: the store is to the word after it. -/
theorem step_of_st_zero {s : State} {sr : RegIdx} (hrun : s.run = true) (hpc : s.pc ≠ 0xFE00#16)
    (hst : decode (s.mem.read s.pc) = .st sr 0#9) :
    step s = .next ((s.setPc (s.pc + 1#16)).memWrite (s.pc + 1#16) (s.getReg sr)) := by
  have hexec : exec (.st sr 0#9) (s.setPc (s.pc + 1#16)) = execSt sr 0#9 (s.setPc (s.pc + 1#16)) := rfl
  rw [step_of_ne hrun hpc, hst, hexec, execSt, pcRel_zero, setPc_pc, setPc_getReg]

/-- Settles O24: the ST writes the word at the incremented PC, and the next fetch reads it there. -/
theorem storedWordIsFetchedNext : Obligations.StoredWordIsFetchedNext := by
  intro s sr hrun hpc hnext hst
  refine ⟨_, step_of_st_zero hrun hpc hst, read_write_self _ _ _, ?_⟩
  have htwice : s.pc + 1#16 + 1#16 = s.pc + 2#16 := BitVec.add_assoc s.pc 1#16 1#16
  rw [step_of_ne (s := (s.setPc (s.pc + 1#16)).memWrite _ _) hrun hnext,
    memWrite_mem, memWrite_pc, setPc_pc, read_write_self, htwice]
  rfl

/-! ### Reads and the poll (R55, R57) -/

/-- A read changes memory and KBD_IN at most. -/
theorem readEffect_sameOutsideMemory (a : Addr) (s : State) : SameOutsideMemory s (s.readEffect a) :=
  ⟨readEffect_getReg a s, readEffect_pc a s, readEffect_cond a s, readEffect_run a s, readEffect_conOut a s⟩

/-- A read of 0xFE00 with a byte pending takes it. -/
theorem readEffect_kbsr_cons {s : State} {k : Byte} {ks : List Byte} (hk : s.kbdIn = k :: ks) :
    (s.readEffect 0xFE00#16).kbdIn = ks ∧ ∀ b, (s.readEffect 0xFE00#16).mem.read b =
      if b = 0xFE00#16 then 0x8000#16 else if b = 0xFE02#16 then BitVec.ofNat 16 k.toNat else s.mem.read b := by
  have h : s.readEffect 0xFE00#16 = _ := kbdPoll_cons hk
  refine ⟨by rw [h]; rfl, fun b => ?_⟩
  rw [h, memWrite_mem, memWrite_mem, read_write, read_write, setKbdIn_mem, BitVec.ofNat_toNat]
  by_cases hb : b = 0xFE00#16
  · rw [hb]; rfl
  · rw [if_neg hb, if_neg hb]

/-- A read of 0xFE00 with nothing pending clears KBSR. -/
theorem readEffect_kbsr_nil {s : State} (hk : s.kbdIn = []) :
    (s.readEffect 0xFE00#16).kbdIn = [] ∧ ∀ b, (s.readEffect 0xFE00#16).mem.read b =
      if b = 0xFE00#16 then 0x0000#16 else s.mem.read b := by
  have h : s.readEffect 0xFE00#16 = _ := kbdPoll_nil hk
  rw [h]
  exact ⟨hk, fun b => read_write s.mem 0xFE00#16 b 0x0000#16⟩

/-- Settles O21: away from 0xFE00 nothing happens; there the poll takes a byte or clears KBSR. -/
theorem keyboardPollOnRead : Obligations.KeyboardPollOnRead := by
  refine fun a s => ⟨fun ha => ?_, ?_⟩
  · rw [memRead_of_ne ha]
    exact ⟨rfl, rfl⟩
  · rintro rfl
    exact ⟨readEffect_sameOutsideMemory _ s, fun hk => ⟨memRead_kbsr_nil hk, readEffect_kbsr_nil hk⟩,
      fun k ks hk => ⟨memRead_kbsr_cons hk, readEffect_kbsr_cons hk⟩⟩

/-- Settles O22: the read of plain memory after the write, and the poll of the pending input, which a write leaves alone. -/
theorem storeThenReadRoundTrip : Obligations.StoreThenReadRoundTrip := by
  refine fun s a v => ⟨fun ha => ?_, ?_⟩
  · rw [memRead_of_ne ha]
    exact read_write_self s.mem a v
  · rintro rfl
    cases hk : s.kbdIn with
    | nil => exact memRead_kbsr_nil hk
    | cons => exact memRead_kbsr_cons hk

/-- A read of KBDR after a poll that took a byte gives that byte. -/
theorem memRead_kbdr_after_poll {s : State} {k : Byte} {ks : List Byte} (hk : s.kbdIn = k :: ks) :
    ((s.memRead 0xFE00#16).2.memRead 0xFE02#16).1 = BitVec.ofNat 16 k.toNat := by
  rw [memRead_of_ne (by decide)]
  exact (readEffect_kbsr_cons hk).2 0xFE02#16

/-- Settles O23: each of the two polls takes the first byte pending before it. -/
theorem secondPollOverwritesFirst : Obligations.SecondPollOverwritesFirst := by
  intro s b c bs hk
  have hk' : (s.memRead 0xFE00#16).2.kbdIn = c :: bs := (readEffect_kbsr_cons hk).1
  exact ⟨(readEffect_kbsr_cons hk').1, memRead_kbdr_after_poll hk, memRead_kbdr_after_poll hk'⟩

/-! ### Every instruction (R63, R148, R168) -/

/-- An instruction leaves every word as it was but the one it stores to and, if it reads memory, the two keyboard words. -/
theorem exec_read_of_ne {i : Instr} {s t : State} {a : Addr} (h : exec i s = .next t) (hst : storesTo i s ≠ some a)
    (hkb : readsMemory i = true → a ≠ 0xFE00#16 ∧ a ≠ 0xFE02#16) : t.mem.read a = s.mem.read a := by
  cases i with
  | br nzp off =>
    obtain rfl := Host.Outcome.next.inj h
    cases condTest nzp s.cond <;> rfl
  | jmp | jsr | jsrr | addReg | addImm | andReg | andImm | notOp | lea | out | halt | trapUnknown | rti | res =>
    obtain rfl := Host.Outcome.next.inj h
    rfl
  | ld | ldr =>
    obtain ⟨hkbsr, hkbdr⟩ := hkb rfl
    obtain rfl := Host.Outcome.next.inj h
    exact readEffect_read_of_ne _ s hkbsr hkbdr
  | ldi dr off =>
    obtain ⟨hkbsr, hkbdr⟩ := hkb rfl
    obtain rfl := Host.Outcome.next.inj h
    exact (readEffect_read_of_ne _ (s.indirect off).2 hkbsr hkbdr).trans (readEffect_read_of_ne _ s hkbsr hkbdr)
  | st | str =>
    obtain rfl := Host.Outcome.next.inj h
    exact read_write_of_ne s.mem (fun e => hst (congrArg some e.symm)) _
  | sti sr off =>
    obtain ⟨hkbsr, hkbdr⟩ := hkb rfl
    obtain rfl := Host.Outcome.next.inj h
    exact (read_write_of_ne _ (fun e => hst (congrArg some e.symm)) _).trans (readEffect_read_of_ne _ s hkbsr hkbdr)
  | puts | putsp =>
    obtain ⟨hkbsr, hkbdr⟩ := hkb rfl
    obtain ⟨_, _, _, _, hmem, _⟩ := printString_frame h
    exact hmem a hkbsr hkbdr
  | getc =>
    obtain ⟨_, hwait⟩ | ⟨_, _, _, hnext⟩ := execGetc_cases s
    · obtain rfl := Host.Outcome.next.inj (hwait.symm.trans h)
      rfl
    · obtain rfl := Host.Outcome.next.inj (hnext.symm.trans h)
      rfl
  | inOp =>
    obtain ⟨_, hwait⟩ | ⟨_, _, _, hnext⟩ := execIn_cases s
    · obtain rfl := Host.Outcome.next.inj (hwait.symm.trans h)
      rfl
    · obtain rfl := Host.Outcome.next.inj (hnext.symm.trans h)
      rfl

/-- Settles O55: the keyboard words are left out in its first clause, and in its second the reading instructions. -/
theorem memoryWrittenOnlyByStoresAndPolls : Obligations.MemoryWrittenOnlyByStoresAndPolls := fun _ _ _ h =>
  ⟨fun _ hst hkbsr hkbdr => exec_read_of_ne h hst fun _ => ⟨hkbsr, hkbdr⟩,
    fun hi _ hst => exec_read_of_ne h hst fun hi' => nomatch hi.symm.trans hi'⟩

end Sys2Proof.Machine
end

section
/-! Encoder and decoder from one layout (R82, R91, R92). A word that agrees with the encoding of a well-formed instruction on
its examined bits decodes to that instruction (`decode_of_agree`), and every word agrees so with the encoding of what it
decodes to (`encode_decode_agree`). The round trips and the ignored bits follow from these two. -/

namespace Sys2Proof

/-! ### Placed fields (R82) -/

theorem getLsbD_place {n : Nat} (lo : Nat) (f : BitVec n) (i : Nat) :
    (place lo f).getLsbD i = (decide (i < 16) && decide (lo ≤ i) && f.getLsbD (i - lo)) := by
  rw [place, BitVec.getLsbD_shiftLeft, BitVec.getLsbD_setWidth]
  by_cases hlo : lo ≤ i
  · by_cases hi : i < 16
    · simp [hi, hlo, show i - lo < 16 by omega]
    · simp [hi]
  · simp [hlo, show i < lo by omega]

theorem getElem_place {n : Nat} (lo : Nat) (f : BitVec n) (i : Nat) (hi : i < 16) :
    (place lo f)[i] = (decide (lo ≤ i) && f.getLsbD (i - lo)) := by
  rw [← BitVec.getLsbD_eq_getElem, getLsbD_place, decide_eq_true hi, Bool.true_and]

/-- A placed field is read back whole. -/
@[simp] theorem extractLsb'_place {n lo : Nat} (f : BitVec n) (h : lo + n ≤ 16) : (place lo f).extractLsb' lo n = f := by
  apply BitVec.eq_of_getLsbD_eq
  intro i hi
  rw [BitVec.getLsbD_extractLsb', getLsbD_place]
  simp [hi, show lo + i < 16 by omega]

/-- A placed field adds nothing to a field it does not overlap. -/
@[simp] theorem extractLsb'_place_of_disjoint {n lo n' lo' : Nat} (f : BitVec n) (h : lo' + n' ≤ lo ∨ lo + n ≤ lo') :
    (place lo f).extractLsb' lo' n' = 0#n' := by
  apply BitVec.eq_of_getLsbD_eq
  intro i hi
  rw [BitVec.getLsbD_extractLsb', getLsbD_place, BitVec.getLsbD_zero]
  obtain h | h := h
  · simp [show ¬ lo ≤ lo' + i by omega]
  · simp [BitVec.getLsbD_of_ge f (lo' + i - lo) (by omega)]

/-- A field of a word put back at its place is the word under the field's mask. -/
theorem place_extractLsb' {lo n : Nat} (w : Word) :
    place lo (w.extractLsb' lo n) = w &&& place lo (BitVec.allOnes n) := by
  apply BitVec.eq_of_getLsbD_eq
  intro i hi
  rw [BitVec.getLsbD_and, getLsbD_place, getLsbD_place]
  by_cases hlo : lo ≤ i <;> simp [hi, hlo, Bool.and_comm]

/-- Words that agree under a mask agree on a field the mask covers whole. -/
theorem extract_of_agree {w e m : Word} (i n : Nat) (h : w &&& m = e &&& m) (hm : m.extractLsb' i n = BitVec.allOnes n) :
    w.extractLsb' i n = e.extractLsb' i n :=
  (extract_of_mask i n h hm).trans (extract_of_mask i n rfl hm).symm

/-- Words that agree under a mask agree on a bit the mask holds. -/
theorem bit_of_agree {w e m : Word} (i : Nat) (h : w &&& m = e &&& m) (hm : m.getLsbD i = true) :
    w.getLsbD i = e.getLsbD i :=
  (bit_of_mask i h hm).trans (bit_of_mask i rfl hm).symm

/-! ### From agreement on the examined bits to the instruction -/

/-- Every instruction examines the whole opcode (R81, R91). -/
theorem examinedBits_opcode (i : Instr) : (examinedBits i).extractLsb' 12 4 = BitVec.allOnes 4 := by
  cases i <;> simp only [examinedBits] <;> decide

/-- A trap vector without a routine of its own is decoded as unknown (R89, R167). -/
theorem decodeTrap_of_unknown {v : BitVec 8} (h : (Instr.trapUnknown v).wellFormed = true) :
    decodeTrap v = .trapUnknown v := by
  simp only [Instr.wellFormed, knownTrapVectors, Bool.not_eq_true', List.contains_eq_mem, decide_eq_false_iff_not,
    List.mem_cons, List.not_mem_nil, not_or] at h
  simp [decodeTrap, h]

/-- A word that agrees with a TRAP word outside `ir[11:8]` has its vector (R88, R91). -/
theorem fieldVector_of_agree {w : Word} {v : BitVec 8} (h : w &&& 0xF0FF#16 = trapWord v &&& 0xF0FF#16) :
    fieldVector w = v := by
  rw [fieldVector, extract_of_agree 0 8 h (by decide)]
  simp [trapWord, BitVec.extractLsb'_or]

/-- The examined bits determine the instruction (R91). -/
theorem decode_of_agree {w : Word} {i : Instr} (hwf : i.wellFormed = true)
    (h : w &&& examinedBits i = encode i &&& examinedBits i) : decode w = i := by
  have hop : fieldOpcode w = fieldOpcode (encode i) := extract_of_agree 12 4 h (examinedBits_opcode i)
  rw [decode, hop]
  cases i with
  | br nzp off =>
    simp only [examinedBits] at h
    simp [fieldOpcode, encode, BitVec.extractLsb'_or, ofBits_table, decodeAs,
      fieldNzp, extract_of_agree 9 3 h (by decide), fieldOff9, extract_of_agree 0 9 h (by decide)]
  | ld | ldi | lea | st | sti =>
    simp only [examinedBits] at h
    simp [fieldOpcode, encode, BitVec.extractLsb'_or, ofBits_table, decodeAs,
      fieldDR, extract_of_agree 9 3 h (by decide), fieldOff9, extract_of_agree 0 9 h (by decide)]
  | ldr | str =>
    simp only [examinedBits] at h
    simp [fieldOpcode, encode, BitVec.extractLsb'_or, ofBits_table, decodeAs,
      fieldDR, extract_of_agree 9 3 h (by decide), fieldSR1, extract_of_agree 6 3 h (by decide),
      fieldOff6, extract_of_agree 0 6 h (by decide)]
  | notOp =>
    simp only [examinedBits] at h
    simp [fieldOpcode, encode, BitVec.extractLsb'_or, ofBits_table, decodeAs,
      fieldDR, extract_of_agree 9 3 h (by decide), fieldSR1, extract_of_agree 6 3 h (by decide)]
  | addReg | andReg =>
    simp only [examinedBits] at h
    have hmode : modeImm w = false := (bit_of_agree 5 h (by decide)).trans (by simp [encode, getElem_place])
    simp [fieldOpcode, encode, BitVec.extractLsb'_or, ofBits_table, decodeAs, hmode,
      fieldDR, extract_of_agree 9 3 h (by decide), fieldSR1, extract_of_agree 6 3 h (by decide),
      fieldSR2, extract_of_agree 0 3 h (by decide)]
  | addImm | andImm =>
    simp only [examinedBits] at h
    have hmode : modeImm w = true := (bit_of_agree 5 h (by decide)).trans (by simp [encode, getElem_place])
    simp [fieldOpcode, encode, BitVec.extractLsb'_or, ofBits_table, decodeAs, hmode,
      fieldDR, extract_of_agree 9 3 h (by decide), fieldSR1, extract_of_agree 6 3 h (by decide),
      fieldImm5, extract_of_agree 0 5 h (by decide)]
  | jsr =>
    simp only [examinedBits] at h
    have hmode : modeLong w = true := (bit_of_agree 11 h (by decide)).trans (by simp [encode, getElem_place])
    simp [fieldOpcode, encode, BitVec.extractLsb'_or, ofBits_table, decodeAs, hmode,
      fieldOff11, extract_of_agree 0 11 h (by decide)]
  | jsrr =>
    simp only [examinedBits] at h
    have hmode : modeLong w = false := (bit_of_agree 11 h (by decide)).trans (by simp [encode, getElem_place])
    simp [fieldOpcode, encode, BitVec.extractLsb'_or, ofBits_table, decodeAs, hmode,
      fieldSR1, extract_of_agree 6 3 h (by decide)]
  | jmp =>
    simp only [examinedBits] at h
    simp [fieldOpcode, encode, BitVec.extractLsb'_or, ofBits_table, decodeAs,
      fieldSR1, extract_of_agree 6 3 h (by decide)]
  | rti | res => rfl
  | getc | out | puts | inOp | putsp | halt => exact congrArg decodeTrap (fieldVector_of_agree h)
  | trapUnknown v =>
    simp [fieldOpcode, encode, trapWord, BitVec.extractLsb'_or, ofBits_table, decodeAs, fieldVector_of_agree h,
      decodeTrap_of_unknown hwf]

/-! ### From the decoded word back to the examined bits -/

theorem encode_decodeTrap (v : BitVec 8) : encode (decodeTrap v) = trapWord v := by
  simp only [decodeTrap]
  repeat' split
  all_goals simp_all [encode]

theorem examinedBits_decodeTrap (v : BitVec 8) : examinedBits (decodeTrap v) = 0xF0FF#16 := by
  simp only [decodeTrap]
  repeat' split
  all_goals rfl

/-- Every word decodes to a term that stands for an instruction word (R89). -/
theorem decode_wellFormed (w : Word) : (decode w).wellFormed = true := by
  rw [decode]
  cases Opcode.ofBits (fieldOpcode w) with
  | trap => exact decodeTrap_wellFormed _
  | add | and => cases hm : modeImm w <;> simp [decodeAs, hm, Instr.wellFormed]
  | jsr => cases hm : modeLong w <;> simp [decodeAs, hm, Instr.wellFormed]
  | _ => rfl

/-- Each field of a word, put back at its place, is the word under the field's mask (R82). -/
theorem place_field (w : Word) :
    place 9 (fieldNzp w) = w &&& 0x0E00#16 ∧ place 9 (bitsOfReg (fieldDR w)) = w &&& 0x0E00#16 ∧
    place 6 (bitsOfReg (fieldSR1 w)) = w &&& 0x01C0#16 ∧ place 0 (bitsOfReg (fieldSR2 w)) = w &&& 0x0007#16 ∧
    place 0 (fieldImm5 w) = w &&& 0x001F#16 ∧ place 0 (fieldOff6 w) = w &&& 0x003F#16 ∧
    place 0 (fieldOff9 w) = w &&& 0x01FF#16 ∧ place 0 (fieldOff11 w) = w &&& 0x07FF#16 ∧
    place 0 (fieldVector w) = w &&& 0x00FF#16 :=
  ⟨place_extractLsb' w, place_extractLsb' w, place_extractLsb' w, place_extractLsb' w, place_extractLsb' w,
    place_extractLsb' w, place_extractLsb' w, place_extractLsb' w, place_extractLsb' w⟩

/-- A word at its opcode: the opcodes are declared in the order of their values (R87). -/
theorem opcode_word {w : Word} {o : Opcode} (h : Opcode.ofBits (fieldOpcode w) = o) :
    BitVec.ofNat 16 (4096 * o.ctorIdx) = w &&& 0xF000#16 := by
  have horder : ∀ b : BitVec 4, BitVec.ofNat 16 (4096 * (Opcode.ofBits b).ctorIdx) = place 12 b := by decide
  rw [← h, horder]
  exact place_extractLsb' w

/-- A word at its opcode and its mode bit `i` (R85). -/
theorem opcode_mode_word {w : Word} {o : Opcode} {b : Bool} (i : Nat) (h : Opcode.ofBits (fieldOpcode w) = o)
    (hb : w.getLsbD i = b) :
    BitVec.ofNat 16 (4096 * o.ctorIdx) ||| (if b then 1#16 <<< i else 0#16) = w &&& (0xF000#16 ||| 1#16 <<< i) := by
  rw [opcode_word h, ← hb, BitVec.and_or_distrib_left]
  exact congrArg _ (BitVec.and_twoPow w i).symm

/-- The fields the decoder reads, the opcode and the mode bit put back at their places give every examined bit of the word. -/
theorem encode_decodeAs_agree {o : Opcode} {w : Word} (ho : Opcode.ofBits (fieldOpcode w) = o) :
    encode (decodeAs o w) &&& examinedBits (decodeAs o w) = w &&& examinedBits (decodeAs o w) := by
  have hop := opcode_word ho
  cases o with
  | br | ld | ldi | lea | st | sti | ldr | str | jmp =>
    simp only [Opcode.ctorIdx, Nat.reduceMul] at hop
    simp only [decodeAs, encode, examinedBits, place_field, hop, ← BitVec.and_or_distrib_left, BitVec.and_assoc]
    rfl
  | rti | res => exact (congrArg (· &&& 0xF000#16) hop).trans (BitVec.and_assoc ..)
  | not =>
    refine or_and_mask ?_ (show place 0 0b111111#6 &&& 0xFFC0#16 = 0#16 by decide)
    simp only [Opcode.ctorIdx, Nat.reduceMul] at hop
    simp only [decodeAs, examinedBits, place_field, hop, ← BitVec.and_or_distrib_left, BitVec.and_assoc]
    rfl
  | trap =>
    obtain ⟨_, _, _, _, _, _, _, _, hvector⟩ := place_field w
    have hword : trapWord (fieldVector w) = w &&& 0xF0FF#16 :=
      (congrArg₂ (· ||| ·) hop hvector).trans BitVec.and_or_distrib_left.symm
    rw [decodeAs, encode_decodeTrap, examinedBits_decodeTrap, hword, BitVec.and_assoc]
    rfl
  | add | and =>
    cases hm : modeImm w with
    | false =>
      have hrow := opcode_mode_word 5 ho hm
      simp only [Opcode.ctorIdx, Nat.reduceMul, Bool.false_eq_true, ite_false, BitVec.or_zero] at hrow
      simp only [decodeAs, hm, Bool.false_eq_true, ite_false, encode, examinedBits, place_field, hrow,
        ← BitVec.and_or_distrib_left, BitVec.and_assoc]
      rfl
    | true =>
      have hrow := opcode_mode_word 5 ho hm
      simp only [Opcode.ctorIdx, Nat.reduceMul, ite_true, BitVec.reduceHShiftLeft, BitVec.reduceOr] at hrow
      simp only [decodeAs, hm, ite_true, encode, examinedBits, place_field, hrow,
        ← BitVec.and_or_distrib_left, BitVec.and_assoc]
      rfl
  | jsr =>
    cases hm : modeLong w with
    | false =>
      have hrow : 0x4000#16 = w &&& 0xF800#16 := opcode_mode_word 11 ho hm
      simp only [decodeAs, hm, Bool.false_eq_true, ite_false, encode, examinedBits, place_field, hrow,
        ← BitVec.and_or_distrib_left, BitVec.and_assoc]
      rfl
    | true =>
      have hrow : 0x4800#16 = w &&& 0xF800#16 := opcode_mode_word 11 ho hm
      simp only [decodeAs, hm, ite_true, encode, examinedBits, place_field, hrow,
        ← BitVec.and_or_distrib_left, BitVec.and_assoc]
      rfl

theorem encode_decode_agree (w : Word) : encode (decode w) &&& examinedBits (decode w) = w &&& examinedBits (decode w) :=
  encode_decodeAs_agree rfl

/-! ### The statements -/

/-- Settles O1: the encoded word agrees with itself. -/
theorem decodeOfEncodeIsIdentity : Obligations.DecodeOfEncodeIsIdentity :=
  fun _ hwf => decode_of_agree hwf rfl

/-- Settles O2: both halves hold for every opcode, whatever the mode bit or the trap vector selects. -/
theorem encodeOfDecodeKeepsExaminedBits : Obligations.EncodeOfDecodeKeepsExaminedBits :=
  fun w => ⟨decode_wellFormed w, encode_decode_agree w⟩

/-- Settles O3: both words agree with the encoded one. -/
theorem ignoredBitsDoNotChangeDecoding : Obligations.IgnoredBitsDoNotChangeDecoding :=
  fun w _ h => decode_of_agree (decode_wellFormed w) (h.trans (encode_decode_agree w).symm)

/-- Settles O4, by running the decoder on the twelve words. -/
theorem specWordsDecode : Obligations.SpecWordsDecode := by
  unfold Obligations.SpecWordsDecode
  decide

end Sys2Proof
end

section
/-! The instruction cycle (R110 to R116): the step as decode and execute after the fetch, the fetch from 0xFE00, which polls
and so runs one of two fixed words (R111), and the two traps that wait for input (R116). -/

namespace Sys2Proof.Machine

open Sys2Proof.Claims

/-- Settles O5: the step of a running core, and its form where the fetch is from plain memory. -/
theorem stepRunsDecodedInstruction : Obligations.StepRunsDecodedInstruction :=
  fun _ hrun => ⟨step_of_run hrun, fun _ hpc hi => hi ▸ step_of_ne hrun hpc⟩

/-! ### The fetch from 0xFE00 (R111) -/

/-- BR with an empty mask is never taken (R130). -/
theorem exec_br_zero (off : BitVec 9) (s : State) : exec (.br 0b000#3 off) s = .next s := by
  simp [exec, execBr, condTest]

/-- The word 0x0000 does nothing (R111). -/
theorem exec_decode_zero (s : State) : exec (decode 0x0000#16) s = .next s := by
  have hdec : decode 0x0000#16 = .br 0b000#3 0#9 := by decide
  rw [hdec, exec_br_zero]

/-- With nothing pending, the step at 0xFE00 ends in the state after the fetch. -/
theorem step_at_kbsr_nil {s : State} (hrun : s.run = true) (hpc : s.pc = 0xFE00#16) (hk : s.kbdIn = []) :
    step s = .next s.fetch.2 := by
  have hword : s.fetch.1 = 0x0000#16 := by
    rw [State.fetch, hpc]
    exact memRead_kbsr_nil hk
  rw [step_of_run hrun, hword, exec_decode_zero]

/-- With a byte pending, the step at 0xFE00 runs the word 0x8000, an RTI, which halts. -/
theorem step_at_kbsr_cons {s : State} {k : Byte} {ks : List Byte} (hrun : s.run = true) (hpc : s.pc = 0xFE00#16)
    (hk : s.kbdIn = k :: ks) : step s = .next s.fetch.2.trapEntry.haltSeq := by
  refine step_of_halts hrun ?_
  rw [hpc, memRead_kbsr_cons hk]
  decide

/-- The fetch from 0xFE00 leaves what the poll leaves, with `pc` at the next word (R111, R112). -/
theorem fetch_snd_at_kbsr {s : State} (hpc : s.pc = 0xFE00#16) :
    s.fetch.2 = (s.readEffect 0xFE00#16).setPc 0xFE01#16 := by
  rw [fetch_snd, hpc]; rfl

/-- Settles O6: what the poll of the fetch leaves, and on top of it nothing, or a halt. -/
theorem fetchFromKeyboardWordPolls : Obligations.FetchFromKeyboardWordPolls := by
  intro s hrun hpc
  obtain ⟨hreg, -, hcond, hrun', hout⟩ := readEffect_sameOutsideMemory 0xFE00#16 s
  refine ⟨fun hk => ?_, fun k ks hk => ?_⟩
  · obtain ⟨hkbd, hmem⟩ := readEffect_kbsr_nil hk
    refine ⟨_, step_at_kbsr_nil hrun hpc hk, ?_⟩
    rw [fetch_snd_at_kbsr hpc]
    exact ⟨rfl, hreg, hcond, hrun'.trans hrun, hout, hkbd, hmem⟩
  · obtain ⟨hkbd, hmem⟩ := readEffect_kbsr_cons hk
    refine ⟨_, step_at_kbsr_cons hrun hpc hk, ?_⟩
    rw [fetch_snd_at_kbsr hpc]
    exact ⟨rfl, trapEntry_getReg_seven _, fun r hr => (trapEntry_getReg_of_ne _ hr).trans (hreg r), hcond, rfl,
      congrArg (· ++ haltBytes) hout, hkbd, hmem⟩

/-! ### Waiting for input (R116) -/

/-- What GETC and IN have in common when a byte is pending (R161, R164). -/
theorem exec_of_needsInput_cons {i : Instr} (hi : needsInput i = true) {s : State} {b : Byte} {bs : List Byte}
    (hk : s.kbdIn = b :: bs) : ∃ t, exec i s = .next t ∧ t.getReg 0 = zextByte b ∧ t.getReg 7 = s.pc ∧ t.pc = s.pc ∧
      t.kbdIn = bs ∧ t.run = s.run := by
  cases i with
  | getc => exact ⟨_, exec_getc_cons hk, setRegCC_getReg_self .., by simp, rfl, rfl, rfl⟩
  | inOp => exact ⟨_, exec_inOp_cons hk, setRegCC_getReg_self .., by simp, rfl, rfl, rfl⟩
  | br | addReg | addImm | ld | st | jsr | jsrr | andReg | andImm | ldr | str | notOp | ldi | sti | jmp | lea | out | puts
  | putsp | halt | trapUnknown | rti | res => cases hi

/-- Settles O9: the core waits, and from the fed state the same word takes the first byte. -/
theorem waitingCoreChangesNothing : Obligations.WaitingCoreChangesNothing := by
  intro s hrun hk hpc hdec
  have hin : needsInput (decode (s.mem.read s.pc)) = true := by
    rcases hdec with h | h <;> rw [h] <;> rfl
  refine ⟨step_of_waiting (waiting_iff.2 ⟨hrun, hk, hpc, hin⟩), fun b bs => ?_⟩
  have hfed : (s.feed (b :: bs)).kbdIn = b :: bs := congrArg (· ++ b :: bs) hk
  obtain ⟨t, hexec, hbyte, hlink, htpc, hrest, htrun⟩ :=
    exec_of_needsInput_cons hin (s := (s.feed (b :: bs)).setPc (s.pc + 1#16)) hfed
  exact ⟨t, (step_of_ne (s := s.feed (b :: bs)) hrun hpc).trans hexec, hbyte.trans (BitVec.ofNat_toNat 16 b).symm, hlink,
    htpc, hrest, htrun.trans hrun⟩

end Sys2Proof.Machine
end

section
/-! The operate instructions ADD, AND and NOT (R120 to R126): which words they are, and that each completes by writing one
result and its code, with everything else as before. -/

namespace Sys2Proof.Machine

open Sys2Proof.Claims

/-! ### Decoding under the table's masks (R82, R85) -/

/-- A word under the mask of ADD and AND is decoded by the opcode and the mode bit of its match. -/
theorem decode_of_operate_mask {w c : Word} {o : Opcode} (h : w &&& 0xF020#16 = c)
    (ho : Opcode.ofBits (c.extractLsb' 12 4) = o) : decode w = decodeAs o w ∧ modeImm w = modeImm c :=
  ⟨decode_of_opcode (opcode_of_mask h (by decide) ho), bit_of_mask 5 h (by decide)⟩

theorem decode_of_addReg_mask {w : Word} (h : w &&& 0xF020#16 = 0x1000#16) :
    decode w = .addReg (regAt w 9) (regAt w 6) (regAt w 0) := by
  obtain ⟨hdec, hmode⟩ := decode_of_operate_mask (o := .add) h (by decide)
  rw [hdec, decodeAs, hmode]
  rfl

theorem decode_of_addImm_mask {w : Word} (h : w &&& 0xF020#16 = 0x1020#16) :
    decode w = .addImm (regAt w 9) (regAt w 6) (w.setWidth 5) := by
  obtain ⟨hdec, hmode⟩ := decode_of_operate_mask (o := .add) h (by decide)
  rw [hdec, decodeAs, hmode, ← low_field]
  rfl

theorem decode_of_andReg_mask {w : Word} (h : w &&& 0xF020#16 = 0x5000#16) :
    decode w = .andReg (regAt w 9) (regAt w 6) (regAt w 0) := by
  obtain ⟨hdec, hmode⟩ := decode_of_operate_mask (o := .and) h (by decide)
  rw [hdec, decodeAs, hmode]
  rfl

theorem decode_of_andImm_mask {w : Word} (h : w &&& 0xF020#16 = 0x5020#16) :
    decode w = .andImm (regAt w 9) (regAt w 6) (w.setWidth 5) := by
  obtain ⟨hdec, hmode⟩ := decode_of_operate_mask (o := .and) h (by decide)
  rw [hdec, decodeAs, hmode, ← low_field]
  rfl

theorem decode_of_notOp_mask {w : Word} (h : w &&& 0xF000#16 = 0x9000#16) :
    decode w = .notOp (regAt w 9) (regAt w 6) :=
  decode_of_opcode (o := .not) (opcode_of_mask h (by decide) (by decide))

/-! ### The result and its code (R14, R30, R126) -/

/-- Writing a register and the code of its value changes nothing else. -/
theorem setRegCC_writesResult (d : RegIdx) (v : Word) (s : State) : WritesResult d v s (s.setRegCC d v) :=
  ⟨setRegCC_getReg_self s d v, condOf_eq_codeOf v, fun _ hr => setRegCC_getReg_of_ne s hr v, rfl, rfl, rfl⟩

/-- An instruction that ends by writing a result and its code, and does nothing else, completes as the statements of the
operate instructions say; `v` is the result in numbers, `v'` the model's word. -/
theorem completes_of_exec_eq_setRegCC {i : Instr} {s : State} {d : RegIdx} {v v' : Word}
    (h : exec i s = .next (s.setRegCC d v')) (hv : v' = v) :
    ∃ t, exec i s = .next t ∧ WritesResult d v s t ∧ SameMemory s t ∧ t.kbdIn = s.kbdIn := by
  subst hv
  exact ⟨_, h, setRegCC_writesResult d v' s, fun _ => rfl, rfl⟩

/-! ### The operations in numbers -/

theorem add_eq_ofNat_mod (a b : Word) : a + b = BitVec.ofNat 16 ((a.toNat + b.toNat) % 65536) := by
  apply BitVec.eq_of_toNat_eq
  simp

theorem sextField_eq_signed {n : Nat} (f : BitVec n) : sextField f = signed f := rfl

theorem add_sextField_eq_ofInt {n : Nat} (a : Word) (f : BitVec n) :
    a + sextField f = BitVec.ofInt 16 (a.toInt + f.toInt) := by
  rw [BitVec.ofInt_add, BitVec.ofInt_toInt, sextField_eq_signed, signed]

/-- The complement is what is missing to 0xFFFF. -/
theorem not_eq_ofNat_sub (a : Word) : ~~~a = BitVec.ofNat 16 (0xFFFF - a.toNat) := by
  apply BitVec.eq_of_toNat_eq
  rw [BitVec.toNat_not, BitVec.toNat_ofNat]
  omega

/-! ### The statements -/

/-- Settles O27: the sum of the two words is the sum of their values modulo 65536. -/
theorem addRegisterForm : Obligations.AddRegisterForm :=
  ⟨fun _ => decode_of_addReg_mask, fun _ _ _ _ => completes_of_exec_eq_setRegCC rfl (add_eq_ofNat_mod _ _)⟩

/-- Settles O28: the sum with the extended immediate is the sum of the signed values. -/
theorem addImmediateForm : Obligations.AddImmediateForm :=
  ⟨fun _ => decode_of_addImm_mask, fun _ _ _ _ => completes_of_exec_eq_setRegCC rfl (add_sextField_eq_ofInt _ _)⟩

/-- Settles O29: the result is the AND of the two words, as the model computes it. -/
theorem andRegisterForm : Obligations.AndRegisterForm :=
  ⟨fun _ => decode_of_andReg_mask, fun _ _ _ _ => completes_of_exec_eq_setRegCC rfl rfl⟩

/-- Settles O30: the extended immediate is the word with the field's signed value. -/
theorem andImmediateForm : Obligations.AndImmediateForm :=
  ⟨fun _ => decode_of_andImm_mask,
    fun _ _ _ _ => completes_of_exec_eq_setRegCC rfl (congrArg _ (sextField_eq_signed _))⟩

/-- Settles O31: the complement of a word is 0xFFFF less its value. -/
theorem notComplementsEveryBit : Obligations.NotComplementsEveryBit :=
  ⟨fun _ => decode_of_notOp_mask, fun _ _ _ => completes_of_exec_eq_setRegCC rfl (not_eq_ofNat_sub _)⟩

end Sys2Proof.Machine
end

section
/-! The control instructions BR, JMP, JSR and JSRR (R130 to R135): which words they are, where each continues, and that
nothing but PC and, for the two calls, R7 changes. -/

namespace Sys2Proof.Machine

open Sys2Proof.Claims

/-! ### Decoding under the table's masks (R82, R85) -/

theorem decode_of_br_mask {w : Word} (h : w &&& 0xF000#16 = 0x0000#16) :
    decode w = .br (w.extractLsb' 9 3) (w.setWidth 9) := by
  rw [decode_of_opcode (o := .br) (opcode_of_mask h (by decide) (by decide)), ← low_field]
  rfl

theorem decode_of_jmp_mask {w : Word} (h : w &&& 0xF000#16 = 0xC000#16) : decode w = .jmp (regAt w 6) :=
  decode_of_opcode (o := .jmp) (opcode_of_mask h (by decide) (by decide))

/-- A word under the mask of the calls with opcode 4 in its match is JSR or JSRR by the mode bit of the match. -/
theorem decode_of_call_mask {w c : Word} (h : w &&& 0xF800#16 = c) (ho : Opcode.ofBits (c.extractLsb' 12 4) = .jsr) :
    decode w = if modeLong c then .jsr (w.setWidth 11) else .jsrr (regAt w 6) := by
  have hmode : modeLong w = modeLong c := bit_of_mask 11 h (by decide)
  rw [decode_of_opcode (opcode_of_mask h (by decide) ho), decodeAs, hmode, ← low_field]
  rfl

theorem decode_of_jsr_mask {w : Word} (h : w &&& 0xF800#16 = 0x4800#16) : decode w = .jsr (w.setWidth 11) :=
  decode_of_call_mask h (by decide)

theorem decode_of_jsrr_mask {w : Word} (h : w &&& 0xF800#16 = 0x4000#16) : decode w = .jsrr (regAt w 6) :=
  decode_of_call_mask h (by decide)

/-! ### The branch (R86, R130) -/

theorem condTest_iff {nzp c : BitVec 3} : condTest nzp c = true ↔ nzp &&& c ≠ 0b000#3 := bne_iff_ne

/-- A BR whose mask shares a bit with COND is taken. -/
theorem exec_br_taken {nzp : BitVec 3} (off : BitVec 9) {s : State} (h : nzp &&& s.cond ≠ 0b000#3) :
    exec (.br nzp off) s = .next (s.setPc (s.pc + signed off)) :=
  congrArg Host.Outcome.next (if_pos (condTest_iff.2 h))

/-- A BR whose mask shares no bit with COND does nothing. -/
theorem exec_br_not_taken {nzp : BitVec 3} (off : BitVec 9) {s : State} (h : nzp &&& s.cond = 0b000#3) :
    exec (.br nzp off) s = .next s :=
  congrArg Host.Outcome.next (if_neg fun ht => condTest_iff.1 ht h)

/-- The mask 0b111 shares a bit with every one-hot COND (R29, R31). -/
theorem full_mask_and_ne_zero {c : BitVec 3} (h : condOneHot c = true) : 0b111#3 &&& c ≠ 0b000#3 := by
  have hfull : 0b111#3 &&& c = c := BitVec.allOnes_and
  rw [hfull]
  rintro rfl
  exact absurd h (by decide)

/-! ### Jump and calls (R131 to R134) -/

theorem exec_jmp (base : RegIdx) (s : State) : exec (.jmp base) s = .next (s.setPc (s.getReg base)) := rfl

theorem exec_jsr (off : BitVec 11) (s : State) : exec (.jsr off) s = .next (s.link.setPc (s.pc + signed off)) := rfl

theorem exec_jsrr (base : RegIdx) (s : State) : exec (.jsrr base) s = .next (s.link.setPc (s.link.getReg base)) := rfl

/-- A call writes no register but R7 (R23). -/
theorem link_setPc_sameRegsBut (s : State) (p : Word) : SameRegsBut 7 s (s.link.setPc p) :=
  fun _ hr => link_getReg_of_ne s hr

/-! ### The statements -/

/-- Settles O32: the branch by whether mask and COND share a bit, the empty and the full mask as its extreme cases. -/
theorem branchOnCondition : Obligations.BranchOnCondition :=
  ⟨fun _ => decode_of_br_mask, fun _ off _ => ⟨exec_br_taken off, exec_br_not_taken off⟩,
    fun off s => ⟨exec_br_zero off s, fun h => exec_br_taken off (full_mask_and_ne_zero h)⟩⟩

/-- Settles O33: the whole next state is the state given with PC replaced. -/
theorem jumpThroughRegister : Obligations.JumpThroughRegister :=
  ⟨fun _ => decode_of_jmp_mask, exec_jmp⟩

/-- Settles O34: the state linked, with PC at the target. -/
theorem callPcRelative : Obligations.CallPcRelative :=
  ⟨fun _ => decode_of_jsr_mask, fun off s => ⟨_, exec_jsr off s, link_getReg_seven s, rfl, link_setPc_sameRegsBut s _,
    rfl, rfl, fun _ => rfl, rfl, rfl⟩⟩

/-- Settles O35: the base is read from the linked state, so R7 gives the incremented PC (D7) and any other register its
old value. -/
theorem callThroughRegister : Obligations.CallThroughRegister := by
  refine ⟨fun _ => decode_of_jsrr_mask, fun base s => ⟨_, exec_jsrr base s, link_getReg_seven s, fun hne => ?_, fun heq => ?_,
    link_setPc_sameRegsBut s _, rfl, rfl, fun _ => rfl, rfl, rfl⟩⟩
  · exact link_getReg_of_ne s hne
  · subst heq
    exact link_getReg_seven s

end Sys2Proof.Machine
end

section
/-! The loads, LEA and the stores (R140 to R148): which words they are, and that each completes with one result or one word
stored, after the reads its addressing mode makes, in their order. -/

namespace Sys2Proof.Machine

open Sys2Proof.Claims

/-! ### Decoding under the table's masks (R82) -/

/-- A word whose opcode's instruction has DR or SR and offset9 is that instruction, with the fields at `ir[11:9]` and
`ir[8:0]` (R82, R83, R84). -/
theorem decode_of_off9_mask {w c : Word} {o : Opcode} {mk : RegIdx → BitVec 9 → Instr} (h : w &&& 0xF000#16 = c)
    (ho : Opcode.ofBits (c.extractLsb' 12 4) = o) (hmk : decodeAs o w = mk (fieldDR w) (fieldOff9 w)) :
    decode w = mk (regAt w 9) (w.setWidth 9) := by
  rw [decode_of_opcode (opcode_of_mask h (by decide) ho), hmk, ← low_field]
  rfl

/-- A word whose opcode's instruction has DR or SR, a base register and offset6 is that instruction, with the fields at
`ir[11:9]`, `ir[8:6]` and `ir[5:0]` (R82, R83, R84). -/
theorem decode_of_off6_mask {w c : Word} {o : Opcode} {mk : RegIdx → RegIdx → BitVec 6 → Instr} (h : w &&& 0xF000#16 = c)
    (ho : Opcode.ofBits (c.extractLsb' 12 4) = o) (hmk : decodeAs o w = mk (fieldDR w) (fieldSR1 w) (fieldOff6 w)) :
    decode w = mk (regAt w 9) (regAt w 6) (w.setWidth 6) := by
  rw [decode_of_opcode (opcode_of_mask h (by decide) ho), hmk, ← low_field]
  rfl

theorem decode_of_ld_mask {w : Word} (h : w &&& 0xF000#16 = 0x2000#16) : decode w = .ld (regAt w 9) (w.setWidth 9) :=
  decode_of_off9_mask (o := .ld) h (by decide) rfl

theorem decode_of_ldi_mask {w : Word} (h : w &&& 0xF000#16 = 0xA000#16) : decode w = .ldi (regAt w 9) (w.setWidth 9) :=
  decode_of_off9_mask (o := .ldi) h (by decide) rfl

theorem decode_of_lea_mask {w : Word} (h : w &&& 0xF000#16 = 0xE000#16) : decode w = .lea (regAt w 9) (w.setWidth 9) :=
  decode_of_off9_mask (o := .lea) h (by decide) rfl

theorem decode_of_st_mask {w : Word} (h : w &&& 0xF000#16 = 0x3000#16) : decode w = .st (regAt w 9) (w.setWidth 9) :=
  decode_of_off9_mask (o := .st) h (by decide) rfl

theorem decode_of_sti_mask {w : Word} (h : w &&& 0xF000#16 = 0xB000#16) : decode w = .sti (regAt w 9) (w.setWidth 9) :=
  decode_of_off9_mask (o := .sti) h (by decide) rfl

theorem decode_of_ldr_mask {w : Word} (h : w &&& 0xF000#16 = 0x6000#16) :
    decode w = .ldr (regAt w 9) (regAt w 6) (w.setWidth 6) :=
  decode_of_off6_mask (o := .ldr) h (by decide) rfl

theorem decode_of_str_mask {w : Word} (h : w &&& 0xF000#16 = 0x7000#16) :
    decode w = .str (regAt w 9) (regAt w 6) (w.setWidth 6) :=
  decode_of_off6_mask (o := .str) h (by decide) rfl

/-! ### Each instruction at its address in numbers (R140) -/

theorem exec_ld (dr : RegIdx) (off : BitVec 9) (s : State) :
    exec (.ld dr off) s = .next (s.loadReg dr (s.pc + signed off)) := rfl

theorem exec_ldi (dr : RegIdx) (off : BitVec 9) (s : State) :
    exec (.ldi dr off) s = .next ((s.memRead (s.pc + signed off)).2.loadReg dr (s.memRead (s.pc + signed off)).1) := rfl

theorem exec_ldr (dr base : RegIdx) (off : BitVec 6) (s : State) :
    exec (.ldr dr base off) s = .next (s.loadReg dr (s.getReg base + signed off)) := rfl

theorem exec_lea (dr : RegIdx) (off : BitVec 9) (s : State) :
    exec (.lea dr off) s = .next (s.setRegCC dr (s.pc + signed off)) := rfl

theorem exec_st (sr : RegIdx) (off : BitVec 9) (s : State) :
    exec (.st sr off) s = .next (s.memWrite (s.pc + signed off) (s.getReg sr)) := rfl

theorem exec_sti (sr : RegIdx) (off : BitVec 9) (s : State) : exec (.sti sr off) s =
    .next ((s.memRead (s.pc + signed off)).2.memWrite (s.memRead (s.pc + signed off)).1 (s.getReg sr)) := rfl

theorem exec_str (sr base : RegIdx) (off : BitVec 6) (s : State) :
    exec (.str sr base off) s = .next (s.memWrite (s.getReg base + signed off) (s.getReg sr)) := rfl

/-! ### What a load leaves (R141 to R143) -/

/-- What changes memory and KBD_IN alone, then a result written, is that result written. -/
theorem writesResult_of_sameOutsideMemory {s u t : State} {d : RegIdx} {v : Word} (hu : SameOutsideMemory s u)
    (ht : WritesResult d v u t) : WritesResult d v s t := by
  obtain ⟨hreg, hpc, _, hrun, hout⟩ := hu
  obtain ⟨hdest, hcond, hother, hpc', hrun', hout'⟩ := ht
  exact ⟨hdest, hcond, fun r hr => (hother r hr).trans (hreg r), hpc'.trans hpc, hrun'.trans hrun, hout'.trans hout⟩

/-- A load writes the word it reads, and the poll of its read changes no register. -/
theorem loadReg_writesResult (dr : RegIdx) (ea : Addr) (s : State) :
    WritesResult dr (s.memRead ea).1 s (s.loadReg dr ea) :=
  writesResult_of_sameOutsideMemory (readEffect_sameOutsideMemory ea s) (setRegCC_writesResult dr _ _)

/-- A load leaves memory as its read does. -/
theorem loadReg_sameMemory (dr : RegIdx) (ea : Addr) (s : State) : SameMemory (s.memRead ea).2 (s.loadReg dr ea) :=
  fun _ => rfl

/-- A load leaves KBD_IN as its read does. -/
theorem loadReg_kbdIn (dr : RegIdx) (ea : Addr) (s : State) : (s.loadReg dr ea).kbdIn = (s.memRead ea).2.kbdIn := rfl

/-! ### The statements -/

/-- Settles O36: a load from the PC-relative address. -/
theorem loadPcRelative : Obligations.LoadPcRelative :=
  ⟨fun _ => decode_of_ld_mask, fun dr off s => ⟨_, _, _, exec_ld dr off s, keyboardPollOnRead _ s,
    loadReg_writesResult dr _ s, loadReg_sameMemory dr _ s, loadReg_kbdIn dr _ s⟩⟩

/-- Settles O37: a load from the pointer, out of the state the pointer's read leaves. -/
theorem loadIndirect : Obligations.LoadIndirect := by
  refine ⟨fun _ => decode_of_ldi_mask, fun dr off s => ?_⟩
  have hptr := readEffect_sameOutsideMemory (s.pc + signed off) s
  exact ⟨_, _, _, _, _, exec_ldi dr off s, keyboardPollOnRead _ s, keyboardPollOnRead _ _,
    writesResult_of_sameOutsideMemory hptr (loadReg_writesResult dr _ _), loadReg_sameMemory dr _ _, loadReg_kbdIn dr _ _⟩

/-- Settles O38: a load from the base-relative address, computed from the state before DR is written. -/
theorem loadBasePlusOffset : Obligations.LoadBasePlusOffset :=
  ⟨fun _ => decode_of_ldr_mask, fun dr base off s => ⟨_, _, _, exec_ldr dr base off s, keyboardPollOnRead _ s,
    loadReg_writesResult dr _ s, loadReg_sameMemory dr _ s, loadReg_kbdIn dr _ s⟩⟩

/-- Settles O39: the address is a result written with no memory access, as by an operate instruction. -/
theorem loadEffectiveAddress : Obligations.LoadEffectiveAddress :=
  ⟨fun _ => decode_of_lea_mask, fun dr off s => completes_of_exec_eq_setRegCC (exec_lea dr off s) rfl⟩

/-- Settles O40: one `MemWrite` at the PC-relative address. -/
theorem storePcRelative : Obligations.StorePcRelative :=
  ⟨fun _ => decode_of_st_mask, fun sr off s => ⟨_, exec_st sr off s, memWriteStoresAndNothingElse s _ _⟩⟩

/-- Settles O41: the store is a `MemWrite` on the state the pointer's read leaves, and that read changes nothing outside
memory and KBD_IN either. -/
theorem storeIndirect : Obligations.StoreIndirect := by
  refine ⟨fun _ => decode_of_sti_mask, fun sr off s => ?_⟩
  obtain ⟨hword, _, hkbd⟩ := memWriteStoresAndNothingElse (s.memRead (s.pc + signed off)).2
    (s.memRead (s.pc + signed off)).1 (s.getReg sr)
  exact ⟨_, _, _, exec_sti sr off s, keyboardPollOnRead _ s, hword, readEffect_sameOutsideMemory _ s, hkbd⟩

/-- Settles O42: one `MemWrite` at the base-relative address. -/
theorem storeBasePlusOffset : Obligations.StoreBasePlusOffset :=
  ⟨fun _ => decode_of_str_mask, fun sr base off s => ⟨_, exec_str sr base off s, memWriteStoresAndNothingElse s _ _⟩⟩

end Sys2Proof.Machine
end

section
/-! TRAP and its routines (R160 to R168): which words they are; the common part; the byte GETC and IN take; the halt; and the
string walk of PUTS and PUTSP, which is the loop of R163 and R165 and prints a terminated string whole. -/

namespace Sys2Proof.Machine

open Sys2Proof.Claims

/-! ### The words of the unknown vectors (R88, R167) -/

/-- The vector of a word is its value modulo 256 (R84, R88). -/
theorem fieldVector_eq_ofNat (w : Word) : fieldVector w = BitVec.ofNat 8 (w.toNat % 256) :=
  BitVec.eq_of_toNat_eq (by simp [fieldVector])

/-- A vector outside 0x20 to 0x25 is none of the six known ones (R88, R167). -/
theorem trapUnknown_wellFormed {v : BitVec 8} (h : v.toNat < 0x20 ∨ 0x25 < v.toNat) :
    (Instr.trapUnknown v).wellFormed = true := by
  have hknown : ∀ u ∈ knownTrapVectors, 0x20 ≤ u.toNat ∧ u.toNat ≤ 0x25 := by decide
  have hv : v ∉ knownTrapVectors := fun hmem => by have := hknown v hmem; omega
  simpa [Instr.wellFormed] using hv

theorem decode_of_unknown_vector {w : Word} (h : w &&& 0xF000#16 = 0xF000#16)
    (hv : w.toNat % 256 < 0x20 ∨ 0x25 < w.toNat % 256) : decode w = .trapUnknown (BitVec.ofNat 8 (w.toNat % 256)) := by
  have htrap : decode w = decodeTrap (fieldVector w) :=
    decode_of_opcode (o := .trap) (opcode_of_mask h (by decide) (by decide))
  rw [htrap, fieldVector_eq_ofNat]
  exact decodeTrap_of_unknown (trapUnknown_wellFormed (by simpa using hv))

/-! ### The common part and the halt (R160, R166) -/

theorem trapEntry_links (s : State) : Links s s.trapEntry :=
  ⟨trapEntry_getReg_seven s, fun _ hr => trapEntry_getReg_of_ne s hr, rfl, rfl⟩

theorem haltSeq_haltsAsTrap (s : State) : HaltsAsTrap s s.trapEntry.haltSeq :=
  ⟨trapEntry_links s, rfl, rfl, fun _ => rfl, rfl⟩

/-- The address of the string, and the byte of OUT, are those in R0 before R7 is linked. -/
theorem trapEntry_getReg_zero (s : State) : s.trapEntry.getReg 0 = s.getReg 0 :=
  trapEntry_getReg_of_ne s (by decide)

theorem exec_out (s : State) : exec .out s = .next (s.trapEntry.conPut [lowByte (s.getReg 0)]) := by
  rw [← trapEntry_getReg_zero]; rfl

theorem exec_puts (s : State) : exec .puts s = printString putsBytes s.trapEntry := rfl

theorem exec_putsp (s : State) : exec .putsp s = printString putspBytes s.trapEntry := rfl

/-! ### The byte of GETC and IN (R161, R164) -/

/-- A zero-extended byte is never negative (R161). -/
theorem codeOf_zextByte (b : Byte) : codeOf (zextByte b) = if b.toNat = 0 then 0b010#3 else 0b001#3 := by
  have hpos : ¬ 0x8000 ≤ b.toNat := by omega
  rw [codeOf, toNat_zextByte, if_neg hpos]

/-- A byte written to R0 after the common part: the registers, COND and PC it leaves, for GETC and IN alike. -/
theorem setRegCC_zextByte_of_links {s u : State} (h : Links s u) (b : Byte) :
    (u.setRegCC 0 (zextByte b)).getReg 0 = BitVec.ofNat 16 b.toNat ∧ (u.setRegCC 0 (zextByte b)).getReg 7 = s.pc ∧
    (∀ r, r ≠ 0 → r ≠ 7 → (u.setRegCC 0 (zextByte b)).getReg r = s.getReg r) ∧
    (u.setRegCC 0 (zextByte b)).cond = (if b.toNat = 0 then 0b010#3 else 0b001#3) ∧
    (u.setRegCC 0 (zextByte b)).pc = s.pc := by
  obtain ⟨hlink, hregs, _, hpc⟩ := h
  obtain ⟨hdest, hcond, hother, hpc', _⟩ := setRegCC_writesResult 0 (zextByte b) u
  exact ⟨hdest.trans (BitVec.ofNat_toNat 16 b).symm, (hother 7 (by decide)).trans hlink,
    fun r h0 h7 => (hother r h0).trans (hregs r h7), hcond.trans (codeOf_zextByte b), hpc'.trans hpc⟩

/-! ### The bytes of a word (R162, R163, R165) -/

theorem lowByte_eq_ofNat (w : Word) : lowByte w = BitVec.ofNat 8 (w.toNat % 256) := fieldVector_eq_ofNat w

theorem highByte_eq_ofNat (w : Word) : highByte w = BitVec.ofNat 8 (w.toNat / 256) :=
  BitVec.eq_of_toNat_eq (by simp [highByte, Nat.shiftRight_eq_div_pow])

theorem highByte_eq_zero_iff (w : Word) : highByte w = 0x00#8 ↔ w.toNat / 256 = 0 := by
  rw [highByte_eq_ofNat, ← BitVec.toNat_inj, BitVec.toNat_ofNat, BitVec.toNat_ofNat]
  omega

theorem putsBytes_eq_putsOut : putsBytes = putsOut :=
  funext fun w => congrArg (fun b => [b]) (lowByte_eq_ofNat w)

theorem putspBytes_eq_putspOut : putspBytes = putspOut := by
  funext w
  simp only [putspBytes, highByte_eq_zero_iff]
  rw [lowByte_eq_ofNat, highByte_eq_ofNat, putspOut]

/-! ### The walk is the loop (R163, R165) -/

/-- A walk that ends, ends where the loop of R163 and R165 does. -/
theorem printWalk_of_stringWalk {emit : Word → List Byte} {n : Nat} {a : Addr} {s t : State}
    (h : stringWalk emit n a s = some t) : PrintWalk emit a s t := by
  induction n generalizing a s with
  | zero => cases h
  | succ n ih =>
    have hread : CoreRead a s ((s.readEffect a).mem.read a) (s.readEffect a) := keyboardPollOnRead a s
    rw [stringWalk_succ] at h
    split at h
    next hzero =>
      obtain rfl := Option.some.inj h
      exact .stop (hzero ▸ hread)
    next hzero => exact .go hread hzero (ih h)

/-- What PUTS and PUTSP have in common: the string output after the common part completes as the loop does, and changes beside
R7 only the console and the keyboard words (R163, R165, R168). -/
theorem printString_trapEntry (emit : Word → List Byte) (s : State) :
    ∃ t, printString emit s.trapEntry = .next t ∧ PrintWalk emit (s.getReg 0) (s.setReg 7 s.pc) t ∧ Links s t ∧
      t.run = s.run ∧ ∀ a, a ≠ 0xFE00#16 → a ≠ 0xFE02#16 → t.mem.read a = s.mem.read a := by
  obtain ⟨t, hnext, hwalk⟩ := printString_next emit s.trapEntry
  obtain ⟨hregs, hpc, hcond, hrun, hmem, _⟩ := printString_frame hnext
  obtain ⟨hlink, hother, _, _⟩ := trapEntry_links s
  have hreg : ∀ r, t.getReg r = s.trapEntry.getReg r := fun r => congrArg (·.get r) hregs
  rw [trapEntry_getReg_zero] at hwalk
  exact ⟨t, hnext, printWalk_of_stringWalk hwalk,
    ⟨(hreg 7).trans hlink, fun r hr => (hreg r).trans (hother r hr), hcond, hpc⟩, hrun, hmem⟩

/-! ### A terminated string (R163, R165) -/

/-- Non-zero words stand from an address on, a zero word after them, none of them at 0xFE00; the addresses wrap (D16). -/
def StringAt (m : Memory) : Addr → List Word → Prop
  | a, [] => m.read a = 0x0000#16 ∧ a ≠ 0xFE00#16
  | a, w :: ws => (m.read a = w ∧ w ≠ 0x0000#16 ∧ a ≠ 0xFE00#16) ∧ StringAt m (a + 1#16) ws

theorem add_ofNat_succ (a : Addr) (k : Nat) : a + BitVec.ofNat 16 (k + 1) = a + 1#16 + BitVec.ofNat 16 k := by
  rw [BitVec.add_assoc, Nat.add_comm, BitVec.ofNat_add]

/-- A string given word by word, by the distance from its start. -/
theorem stringAt_of_getElem {m : Memory} {a : Addr} {ws : List Word}
    (hws : ∀ (k : Nat) (h : k < ws.length), m.read (a + BitVec.ofNat 16 k) = ws[k] ∧ ws[k] ≠ 0x0000#16 ∧
      a + BitVec.ofNat 16 k ≠ 0xFE00#16)
    (hend : m.read (a + BitVec.ofNat 16 ws.length) = 0x0000#16) (hne : a + BitVec.ofNat 16 ws.length ≠ 0xFE00#16) :
    StringAt m a ws := by
  induction ws generalizing a with
  | nil =>
    rw [List.length_nil, BitVec.add_zero] at hend hne
    exact ⟨hend, hne⟩
  | cons w ws ih =>
    rw [List.length_cons, add_ofNat_succ] at hend hne
    refine ⟨?_, ih (fun k hk => ?_) hend hne⟩
    · have hfirst := hws 0 (Nat.zero_lt_succ _)
      rwa [BitVec.add_zero] at hfirst
    · have hlater := hws (k + 1) (Nat.succ_lt_succ hk)
      rwa [add_ofNat_succ] at hlater

/-- A read of plain memory has no effect (R55). -/
theorem readEffect_of_ne {a : Addr} (h : a ≠ 0xFE00#16) (s : State) : s.readEffect a = s :=
  congrArg Prod.snd (memRead_of_ne h s)

/-- A walk over a string that ends has output the string and changed nothing else: no read of it polls. -/
theorem stringWalk_of_stringAt {emit : Word → List Byte} {ws : List Word} {n : Nat} {a : Addr} {s t : State}
    (hstr : StringAt s.mem a ws) (h : stringWalk emit n a s = some t) : t = s.conPut (ws.flatMap emit) := by
  induction n generalizing ws a s with
  | zero => cases h
  | succ n ih =>
    rw [stringWalk_succ] at h
    cases ws with
    | nil =>
      obtain ⟨hzero, hne⟩ := hstr
      rw [readEffect_of_ne hne, if_pos hzero] at h
      obtain rfl := Option.some.inj h
      simp [State.conPut]
    | cons w ws =>
      obtain ⟨⟨hword, hw, hne⟩, hrest⟩ := hstr
      rw [readEffect_of_ne hne, hword, if_neg hw] at h
      rw [ih (s := s.conPut (emit w)) hrest h]
      simp [State.conPut]

/-- The string at the address in R0 is printed whole, and nothing but R7 and CON_OUT changes; that the walk ends is
`printString_next`. -/
theorem printString_trapEntry_of_stringAt (emit : Word → List Byte) {s : State} {ws : List Word}
    (hstr : StringAt s.mem (s.getReg 0) ws) :
    printString emit s.trapEntry = .next (s.trapEntry.conPut (ws.flatMap emit)) := by
  obtain ⟨t, hnext, hwalk⟩ := printString_next emit s.trapEntry
  rw [trapEntry_getReg_zero] at hwalk
  rw [hnext, stringWalk_of_stringAt (s := s.trapEntry) hstr hwalk]

/-! ### The statements -/

/-- Settles O43: the first byte taken after the common part, and written to R0. -/
theorem getcTakesOneByte : Obligations.GetcTakesOneByte := by
  refine ⟨fun _ => decode_of_agree (i := .getc) rfl, fun s b bs hk => ⟨_, exec_getc_cons hk, ?_⟩⟩
  obtain ⟨hbyte, hlink, hother, hcond, hpc⟩ :=
    setRegCC_zextByte_of_links (u := s.trapEntry.setKbdIn bs) (trapEntry_links s) b
  exact ⟨hbyte, hlink, hother, hcond, hpc, rfl, rfl, fun _ => rfl, rfl⟩

/-- Settles O44: the low byte of R0 is its value modulo 256. -/
theorem outWritesLowByte : Obligations.OutWritesLowByte :=
  ⟨fun _ => decode_of_agree (i := .out) rfl, fun s => ⟨_, exec_out s, trapEntry_links s, rfl, fun _ => rfl, rfl,
    congrArg (fun b => s.conOut ++ [b]) (lowByte_eq_ofNat (s.getReg 0))⟩⟩

/-- Settles O45: the string output with the bytes of PUTS. -/
theorem putsPrintsLowBytes : Obligations.PutsPrintsLowBytes := by
  refine ⟨fun _ => decode_of_agree (i := .puts) rfl, fun s => ?_⟩
  rw [exec_puts, putsBytes_eq_putsOut]
  exact printString_trapEntry putsOut s

/-- Settles O46: as GETC, with the prompt before the byte is taken and the byte output after it. -/
theorem inPromptsAndEchoes : Obligations.InPromptsAndEchoes := by
  refine ⟨fun _ => decode_of_agree (i := .inOp) rfl, fun s b bs hk => ⟨_, exec_inOp_cons hk, ?_⟩⟩
  obtain ⟨hbyte, hlink, hother, hcond, hpc⟩ :=
    setRegCC_zextByte_of_links (u := ((s.trapEntry.conPut inPrompt).setKbdIn bs).conPut [b]) (trapEntry_links s) b
  exact ⟨hbyte, hlink, hother, hcond, hpc, rfl, rfl, fun _ => rfl, rfl⟩

/-- Settles O47: the string output with the bytes of PUTSP. -/
theorem putspPrintsPackedBytes : Obligations.PutspPrintsPackedBytes := by
  refine ⟨fun _ => decode_of_agree (i := .putsp) rfl, fun s => ?_⟩
  rw [exec_putsp, putspBytes_eq_putspOut]
  exact printString_trapEntry putspOut s

/-- Settles O48: one walk over the string, with the bytes of PUTS and with those of PUTSP. -/
theorem terminatedStringIsPrinted : Obligations.TerminatedStringIsPrinted := by
  intro s ws hws hend hne
  have hstr : StringAt s.mem (s.getReg 0) ws := stringAt_of_getElem hws hend hne
  rw [exec_puts, exec_putsp, putsBytes_eq_putsOut, putspBytes_eq_putspOut]
  exact ⟨printString_trapEntry_of_stringAt putsOut hstr, printString_trapEntry_of_stringAt putspOut hstr⟩

/-- Settles O49: the common part and the halt sequence, after which RUN is 0. -/
theorem haltStopsTheMachine : Obligations.HaltStopsTheMachine :=
  ⟨fun _ => decode_of_agree (i := .halt) rfl,
    fun s => ⟨_, exec_of_halts rfl s, haltSeq_haltsAsTrap s, step_of_halted rfl⟩⟩

/-- Settles O50: an unknown vector and HALT are both halting instructions. -/
theorem unknownVectorBehavesAsHalt : Obligations.UnknownVectorBehavesAsHalt :=
  ⟨fun _ => decode_of_unknown_vector, fun v s => ⟨(exec_of_halts rfl s).trans (exec_of_halts (i := .halt) rfl s).symm,
    _, exec_of_halts (i := .trapUnknown v) rfl s, haltSeq_haltsAsTrap s⟩⟩

end Sys2Proof.Machine
end

section
/-! The opcodes without semantics, RTI and RES (R180 to R182): which words they are, and that each halts as TRAP HALT. -/

namespace Sys2Proof.Machine

open Sys2Proof.Claims

/-- A halting instruction, whichever it is, leaves the state of TRAP HALT (R166, R182). -/
theorem haltsAsTrap_of_halts {i : Instr} (hi : halts i = true) (s : State) :
    ∃ t, exec i s = .next t ∧ HaltsAsTrap s t :=
  ⟨_, exec_of_halts hi s, haltSeq_haltsAsTrap s⟩

/-- Settles O51: the opcode is all that is examined of either word, and both are halting instructions, R7 linked by D8. -/
theorem invalidOpcodesHalt : Obligations.InvalidOpcodesHalt :=
  ⟨fun _ => ⟨decode_of_agree (i := .rti) rfl, decode_of_agree (i := .res) rfl⟩,
    fun s => ⟨haltsAsTrap_of_halts rfl s, haltsAsTrap_of_halts rfl s⟩⟩

end Sys2Proof.Machine
end

section
/-! Exceptions (R190 to R209): there are none. Every instruction answers a next state, so every step does; and the states of a
run, whatever the host loads and types, meet the invariant (R31, R115, R228). -/

namespace Sys2Proof.Machine

/-! ### No fault and no refusal (R190, R209) -/

/-- Every instruction has a next state from every state: the traps that read input wait or take a byte (R116), and the string
walks end (log 18). -/
theorem exec_next (i : Instr) (s : State) : ∃ t, exec i s = .next t := by
  cases i with
  | br | addReg | addImm | ld | st | jsr | jsrr | andReg | andImm | ldr | str | rti | notOp | ldi | sti | jmp | res | lea | out
  | halt | trapUnknown => exact ⟨_, rfl⟩
  | getc =>
    obtain ⟨_, hwait⟩ | ⟨_, _, _, hnext⟩ := execGetc_cases s
    · exact ⟨_, hwait⟩
    · exact ⟨_, hnext⟩
  | inOp =>
    obtain ⟨_, hwait⟩ | ⟨_, _, _, hnext⟩ := execIn_cases s
    · exact ⟨_, hwait⟩
    · exact ⟨_, hnext⟩
  | puts =>
    obtain ⟨t, hnext, _⟩ := printString_next putsBytes s.trapEntry
    exact ⟨t, hnext⟩
  | putsp =>
    obtain ⟨t, hnext, _⟩ := printString_next putspBytes s.trapEntry
    exact ⟨t, hnext⟩

/-- Settles O10: a halted core stays as it is (log 17), and a running one answers as the instruction it fetches. -/
theorem everyStepAnswersNext : Obligations.EveryStepAnswersNext := by
  intro s
  cases hrun : s.run with
  | false => exact ⟨s, step_of_halted hrun⟩
  | true =>
    rw [step_of_run hrun]
    exact exec_next _ _

/-! ### The invariant in a run (R222, R227) -/

theorem loadImages_wf (images : List Image) {s : State} (hs : s.mem.wf = true) : (s.loadImages images).mem.wf = true := by
  induction images generalizing s with
  | nil => exact hs
  | cons im images ih =>
    obtain ⟨_, _, _, _, _, _, hwf⟩ := loadWords_frame im.words im.origin s
    exact ih (hwf hs)

/-- Loading leaves all but memory as at reset, and memory canonical. -/
theorem launch_inv {images : List Image} {s : State} (h : launch images = some s) : Inv s := by
  obtain ⟨_, rfl⟩ := launch_eq_some_iff.1 h
  obtain ⟨_, hreset, _⟩ := invariantHoldsAtReset
  obtain ⟨m, hm⟩ := launch_frame h
  exact ⟨loadImages_wf images wf_nil, hm ▸ hreset, hm ▸ nofun⟩

/-- Input from the host changes nothing the invariant speaks of (R227). -/
theorem feed_inv {s : State} (hs : Inv s) (bs : List Byte) : Inv (s.feed bs) :=
  ⟨hs.memory, hs.oneHot, hs.halted⟩

/-- Every state of a run meets the invariant. -/
theorem reachable_inv {s : State} (h : Reachable s) : Inv s := by
  induction h with
  | launched hlaunch => exact launch_inv hlaunch
  | stepped _ hstep ih => exact invariantKeptByStep _ _ ih hstep
  | fed _ bs ih => exact feed_inv ih bs

/-- Settles O14: the next state is there from every state, and the rest is the invariant. -/
theorem reachableRunsAreSafe : Obligations.ReachableRunsAreSafe := by
  intro s h
  obtain ⟨_, hcond, hhalted⟩ := reachable_inv h
  refine ⟨everyStepAnswersNext s, hcond, fun hrun => ?_⟩
  obtain ⟨hlink, hmessage⟩ := hhalted hrun
  exact ⟨hmessage, hlink⟩

end Sys2Proof.Machine
end

section
/-! Loading programs (R222 to R224, R227): the host's moves keep the invariant, a launch places the words of its images, and an
image file read back gives its image. -/

namespace Sys2Proof.Machine

open Sys2Proof.Claims

/-- Settles O13: loading leaves all but memory as at reset and memory canonical; input is nothing the invariant speaks of. -/
theorem hostMovesKeepInvariant : Obligations.HostMovesKeepInvariant :=
  ⟨fun _ _ h => launch_inv h, fun _ bs hs => feed_inv hs bs⟩

/-! ### Where the words of a launch stand (R222 to R224) -/

/-- Images are loaded in their order. -/
theorem loadImages_append (earlier later : List Image) (s : State) :
    s.loadImages (earlier ++ later) = (s.loadImages earlier).loadImages later :=
  List.foldl_append

theorem fits_eq_true_iff {im : Image} : im.fits = true ↔ im.origin.toNat + im.words.length ≤ 65536 := decide_eq_true_iff

/-- A launch is refused exactly when an image does not fit (R224). -/
theorem launch_eq_none_iff {images : List Image} : launch images = none ↔ ∃ im ∈ images, ¬ im.fits = true := by
  rw [Option.eq_none_iff_forall_ne_some]
  simp only [ne_eq, launch_eq_some_iff]
  constructor
  · intro h
    by_contra! hfit
    exact h _ ⟨hfit, rfl⟩
  · rintro ⟨im, him, hfit⟩ _ ⟨hall, _⟩
    exact hfit (hall im him)

/-- Settles O17: the image's own load places its words, and the later ones leave what they do not cover. -/
theorem launchPlacesImages : Obligations.LaunchPlacesImages := by
  refine ⟨fun earlier im later s h k hk hlater => ?_, fun images => ?_⟩
  · obtain ⟨hfit, rfl⟩ := launch_eq_some_iff.1 h
    obtain ⟨_, hfit⟩ := List.forall_mem_append.1 hfit
    obtain ⟨him, hfit⟩ := List.forall_mem_cons.1 hfit
    rw [loadImages_append, loadImages_cons, loadImages_read_of_not_covers hfit hlater]
    exact loadWords_read_inside _ _ _ k hk (fits_eq_true_iff.1 him)
  · simp only [launch_eq_none_iff, fits_eq_true_iff, Nat.not_le]

/-! ### The image file (R223) -/

theorem bigEndian_eq (w : Word) : bigEndian w = [highByte w, lowByte w] := by
  rw [highByte_eq_ofNat, lowByte_eq_ofNat, bigEndian]

theorem highByte_append_lowByte (w : Word) : highByte w ++ lowByte w = w :=
  (BitVec.extractLsb'_append_extractLsb'_eq_extractLsb' rfl).trans BitVec.extractLsb'_eq_self

/-- Big-endian words at the front of a byte sequence are read as those words, whatever follows them. -/
theorem wordsOfBytes_flatMap_bigEndian_append (ws : List Word) (bs : List Byte) :
    wordsOfBytes (ws.flatMap bigEndian ++ bs) = (wordsOfBytes bs).map (ws ++ ·) := by
  induction ws with
  | nil => exact Option.map_id'.symm
  | cons w ws ih =>
    calc wordsOfBytes ((w :: ws).flatMap bigEndian ++ bs)
      _ = (wordsOfBytes (ws.flatMap bigEndian ++ bs)).map ((highByte w ++ lowByte w) :: ·) := by
        rw [List.flatMap_cons, bigEndian_eq]; rfl
      _ = (wordsOfBytes bs).map (w :: ws ++ ·) := by
        rw [highByte_append_lowByte, ih, Option.map_map]; rfl

/-- Settles O18: the bytes after the words are none, or the odd one. -/
theorem imageFileIsBigEndian : Obligations.ImageFileIsBigEndian := by
  intro im
  have hwords := wordsOfBytes_flatMap_bigEndian_append (im.origin :: im.words)
  refine ⟨?_, fun b => ?_⟩
  · have hread := hwords []
    rw [List.append_nil] at hread
    rw [imageOfBytes, hread]
    simp [wordsOfBytes]
  · rw [imageOfBytes, hwords [b]]
    simp [wordsOfBytes]

end Sys2Proof.Machine
end
